-- ==== Sys2Proof/Word.lean ====
section
/-! DEFINITION. The machine's data units (spec/00_scope.md R5, R7): a Word is 16 bits, a byte is 8 bits, and a general
register is named by a number 0 to 7 (10_state.md R10). Addition, AND and complement on Words are those of `BitVec 16`,
that is modulo 2^16 and bitwise (R7). -/

namespace Sys2Proof

/-- A Word, "a 16-bit unsigned integer, the machine's native data unit" (00_scope.md R7, R9). -/
abbrev Word := BitVec 16

/-- A byte, 0 to 255 (00_scope.md R7). -/
abbrev Byte := BitVec 8

/-- The number of a general register, R0 to R7 (10_state.md R10). -/
abbrev Reg := Fin 8

end Sys2Proof
end

