-- ==== Sys2Proof/Config.lean ====
section
/-! DEFINITION. The constants of the hardware (spec/00_scope.md R5) and its parameters (R6). -/

namespace Sys2Proof

/-- KBSR, the address of the keyboard status register (00_scope.md R5). -/
def Config.kbsr : Word := 0xFE00#16

/-- KBDR, the address of the keyboard data register (00_scope.md R5). -/
def Config.kbdr : Word := 0xFE02#16

/-- ENTRY, the value of PC at the first fetch (00_scope.md R5). -/
def Config.entry : Word := 0x3000#16

/-- MEM_WORDS, the number of memory cells (00_scope.md R5). -/
def Config.memWords : Nat := 65536

/-- The two readings of "sets bit 15 of the stored KBSR value" that 92_eei_decisions.md D9 names. -/
inductive Config.KbsrReadyMode where
  /-- Stored word OR 0x8000, the other bits kept. -/
  | orBit15
  /-- Store exactly 0x8000. -/
  | assign8000
  deriving DecidableEq, Repr

/-- KBSR_READY_MODE, decided by the spec as `or_bit15` (00_scope.md R6, D9).
DEDUCED (log 7), unsafe: a claim about bits 14:0 of KBSR after a ready poll is false of hardware of the other mode. -/
def Config.kbsrReadyMode : Config.KbsrReadyMode := .orBit15

/-- What a ready poll stores in KBSR in each mode (92_eei_decisions.md D9). -/
def Config.readyWord : Config.KbsrReadyMode → Word → Word
  | .orBit15, stored => stored ||| 0x8000#16
  | .assign8000, _ => 0x8000#16

/-- IN_PROMPT, the bytes the IN routine emits before it reads: an OPEN parameter (00_scope.md R6, D12).
It has no body, so nothing can be proved about its value.
DESIGN CHOICE (log 6), safe: every statement holds whatever the prompt is. -/
opaque Config.inPrompt : List Byte

/-- The default of GPR_RESET, the OPEN reset value of R0 to R7 (00_scope.md R6, D11).
DESIGN CHOICE (log 3), unsafe: the spec states no reset value for R0 to R7. -/
def Config.gprResetDefault : Vector Word 8 := Vector.replicate 8 0x0000#16

end Sys2Proof
end

