-- ==== Sys2Proof/Syntax.lean ====
section
/-! DEFINITION. The instructions: one constructor per row of spec/opcode_table.json, with the fields the handler reads
(spec/30_encoding.md R51, R52, R61). Bits that no handler reads are not kept (R57).
DESIGN CHOICE (log 9), safe: "no state depends on them" (R57), so leaving them out loses nothing. -/

namespace Sys2Proof

/-- The sixteen opcodes, in the order of the document's list (30_encoding.md R55). -/
inductive Opcode where
  | br | add | ld | st | jsr | and | ldr | str | rti | not | ldi | sti | jmp | res | lea | trap
  deriving DecidableEq, Repr

/-- An instruction, decoded (30_encoding.md R61). Offsets and immediates are held as their fields, not yet extended. -/
inductive Instr where
  /-- BR (R100): condition bits and offset9. -/
  | br (n z p : Bool) (off9 : BitVec 9)
  /-- ADD, register mode (R90). -/
  | addReg (dr sr1 sr2 : Reg)
  /-- ADD, immediate mode (R91). -/
  | addImm (dr sr1 : Reg) (imm5 : BitVec 5)
  /-- LD (R110). -/
  | ld (dr : Reg) (off9 : BitVec 9)
  /-- ST (R120). -/
  | st (sr : Reg) (off9 : BitVec 9)
  /-- JSR (R103). -/
  | jsr (off11 : BitVec 11)
  /-- JSRR (R104). -/
  | jsrr (baseR : Reg)
  /-- AND, register mode (R92). -/
  | andReg (dr sr1 sr2 : Reg)
  /-- AND, immediate mode (R93). -/
  | andImm (dr sr1 : Reg) (imm5 : BitVec 5)
  /-- LDR (R112). -/
  | ldr (dr baseR : Reg) (off6 : BitVec 6)
  /-- STR (R122). -/
  | str (sr baseR : Reg) (off6 : BitVec 6)
  /-- RTI (R130). -/
  | rti
  /-- NOT (R94). -/
  | not (dr sr1 : Reg)
  /-- LDI (R111). -/
  | ldi (dr : Reg) (off9 : BitVec 9)
  /-- STI (R121). -/
  | sti (sr : Reg) (off9 : BitVec 9)
  /-- JMP (R102). -/
  | jmp (baseR : Reg)
  /-- RES (R131). -/
  | res
  /-- LEA (R113). -/
  | lea (dr : Reg) (off9 : BitVec 9)
  /-- TRAP with vector 0x20, GETC (R136). -/
  | trapGetc
  /-- TRAP with vector 0x21, OUT (R137). -/
  | trapOut
  /-- TRAP with vector 0x22, PUTS (R138). -/
  | trapPuts
  /-- TRAP with vector 0x23, IN (R139). -/
  | trapIn
  /-- TRAP with vector 0x24, PUTSP (R140). -/
  | trapPutsp
  /-- TRAP with vector 0x25, HALT (R141). -/
  | trapHalt
  /-- TRAP with any other vector (R142). -/
  | trapUndefined (vect : BitVec 8)
  deriving DecidableEq, Repr

end Sys2Proof
end

