-- ==== Sys2Proof/WellFormed.lean ====
section
/-! DEFINITION. Which terms of `Instr` an instruction word can decode to. The field types bound every field; the one
further check is that `trapUndefined` carries none of the six defined vectors (spec/30_encoding.md R59). -/

namespace Sys2Proof

/-- The six defined trap vectors, 0x20 to 0x25 (30_encoding.md R59). -/
def definedVector (v : BitVec 8) : Bool :=
  decide (0x20#8 ≤ v) && decide (v ≤ 0x25#8)

/-- The well-formed instructions: those some word decodes to. -/
def Instr.wellFormed : Instr → Bool
  | .trapUndefined v => !definedVector v
  | .br _ _ _ _ | .addReg _ _ _ | .addImm _ _ _ | .ld _ _ | .st _ _ | .jsr _ | .jsrr _ | .andReg _ _ _
  | .andImm _ _ _ | .ldr _ _ _ | .str _ _ _ | .rti | .not _ _ | .ldi _ _ | .sti _ _ | .jmp _ | .res | .lea _ _
  | .trapGetc | .trapOut | .trapPuts | .trapIn | .trapPutsp | .trapHalt => true

end Sys2Proof
end

