-- ==== Sys2Proof/Decode.lean ====
section
/-! DEFINITION. The instruction codec of spec/30_encoding.md: field extraction (R51), the opcode map (R55), the decoding
procedure (R61), and an encoder written from the same formats (R52).
PRESUMED (log 8), unsafe: opcode numbers, register field positions, the mode bit and the n, z, p order are the spec's
decisions D1 to D4 (general knowledge in part); if the hardware's differ, every instruction is wrong in its operands. -/

namespace Sys2Proof

/-- `instr[lo+width-1:lo]`, a field as an unsigned number of `width` bits (00_scope.md R7). -/
def field (w : Word) (lo width : Nat) : BitVec width := w.extractLsb' lo width

/-- `reg(instr, shift)`, the 3-bit register number at a shift (30_encoding.md R51). -/
def regField (w : Word) (shift : Nat) : Reg := (field w shift 3).toFin

/-- The three bits of a register number (30_encoding.md R51). -/
def regBits (r : Reg) : BitVec 3 := BitVec.ofFin r

/-- Why a word would not decode: its top four bits name no opcode (60_exceptions.md R181). -/
inductive DecodeReject where
  | invalidOpcode (op : BitVec 4)
  deriving DecidableEq, Repr

/-- The document's list of opcodes; the opcode number is the position in it (30_encoding.md R55, D1). -/
def opcodeList : List Opcode :=
  [.br, .add, .ld, .st, .jsr, .and, .ldr, .str, .rti, .not, .ldi, .sti, .jmp, .res, .lea, .trap]

/-- The opcode with a number, if the list has one (30_encoding.md R55). -/
def opcodeOf (op : BitVec 4) : Option Opcode := opcodeList[op.toNat]?

/-- The routine selected by `trapvect8` (30_encoding.md R59, 46_trap.md R135). -/
def decodeTrap (v : BitVec 8) : Instr :=
  if v = 0x20#8 then .trapGetc
  else if v = 0x21#8 then .trapOut
  else if v = 0x22#8 then .trapPuts
  else if v = 0x23#8 then .trapIn
  else if v = 0x24#8 then .trapPutsp
  else if v = 0x25#8 then .trapHalt
  else .trapUndefined v

/-- The instruction an opcode and a word's fields give (30_encoding.md R61). -/
def decodeOperands (op : Opcode) (w : Word) : Instr :=
  match op with
  | .br => .br (w.getLsbD 11) (w.getLsbD 10) (w.getLsbD 9) (field w 0 9)
  | .add =>
    if w.getLsbD 5 then .addImm (regField w 9) (regField w 6) (field w 0 5)
    else .addReg (regField w 9) (regField w 6) (regField w 0)
  | .ld => .ld (regField w 9) (field w 0 9)
  | .st => .st (regField w 9) (field w 0 9)
  | .jsr => if w.getLsbD 11 then .jsr (field w 0 11) else .jsrr (regField w 6)
  | .and =>
    if w.getLsbD 5 then .andImm (regField w 9) (regField w 6) (field w 0 5)
    else .andReg (regField w 9) (regField w 6) (regField w 0)
  | .ldr => .ldr (regField w 9) (regField w 6) (field w 0 6)
  | .str => .str (regField w 9) (regField w 6) (field w 0 6)
  | .rti => .rti
  | .not => .not (regField w 9) (regField w 6)
  | .ldi => .ldi (regField w 9) (field w 0 9)
  | .sti => .sti (regField w 9) (field w 0 9)
  | .jmp => .jmp (regField w 6)
  | .res => .res
  | .lea => .lea (regField w 9) (field w 0 9)
  | .trap => decodeTrap (field w 0 8)

/-- The decoder (30_encoding.md R61). A word whose opcode number the list does not hold is rejected by name, as the
document's execution loop has it (60_exceptions.md R181); no word is (30_encoding.md R56). -/
def decode (w : Word) : Except DecodeReject Instr :=
  match opcodeOf (field w 12 4) with
  | some op => .ok (decodeOperands op w)
  | none => .error (.invalidOpcode (field w 12 4))

/-- A word with a field at bits `lo` and up, zeros elsewhere (00_scope.md R7). -/
def place {n : Nat} (v : BitVec n) (lo : Nat) : Word := v.setWidth 16 <<< lo

/-- The word of a TRAP with a vector, ignored bits 11:8 zero (30_encoding.md R52, R62). -/
def trapWord (v : BitVec 8) : Word := place 0xF#4 12 ||| place v 0

/-- The word of an instruction, from the formats of 30_encoding.md R52. Ignored bits take the values an assembler
writes (R57, R62): ones in NOT, zeros elsewhere. -/
def encode : Instr → Word
  | .br n z p off9 =>
    place 0x0#4 12 ||| place (BitVec.ofBool n) 11 ||| place (BitVec.ofBool z) 10 ||| place (BitVec.ofBool p) 9 |||
      place off9 0
  | .addReg dr sr1 sr2 => place 0x1#4 12 ||| place (regBits dr) 9 ||| place (regBits sr1) 6 ||| place (regBits sr2) 0
  | .addImm dr sr1 imm5 =>
    place 0x1#4 12 ||| place (regBits dr) 9 ||| place (regBits sr1) 6 ||| place 0b1#1 5 ||| place imm5 0
  | .ld dr off9 => place 0x2#4 12 ||| place (regBits dr) 9 ||| place off9 0
  | .st sr off9 => place 0x3#4 12 ||| place (regBits sr) 9 ||| place off9 0
  | .jsr off11 => place 0x4#4 12 ||| place 0b1#1 11 ||| place off11 0
  | .jsrr baseR => place 0x4#4 12 ||| place (regBits baseR) 6
  | .andReg dr sr1 sr2 => place 0x5#4 12 ||| place (regBits dr) 9 ||| place (regBits sr1) 6 ||| place (regBits sr2) 0
  | .andImm dr sr1 imm5 =>
    place 0x5#4 12 ||| place (regBits dr) 9 ||| place (regBits sr1) 6 ||| place 0b1#1 5 ||| place imm5 0
  | .ldr dr baseR off6 => place 0x6#4 12 ||| place (regBits dr) 9 ||| place (regBits baseR) 6 ||| place off6 0
  | .str sr baseR off6 => place 0x7#4 12 ||| place (regBits sr) 9 ||| place (regBits baseR) 6 ||| place off6 0
  | .rti => place 0x8#4 12
  | .not dr sr1 => place 0x9#4 12 ||| place (regBits dr) 9 ||| place (regBits sr1) 6 ||| place 0b111111#6 0
  | .ldi dr off9 => place 0xA#4 12 ||| place (regBits dr) 9 ||| place off9 0
  | .sti sr off9 => place 0xB#4 12 ||| place (regBits sr) 9 ||| place off9 0
  | .jmp baseR => place 0xC#4 12 ||| place (regBits baseR) 6
  | .res => place 0xD#4 12
  | .lea dr off9 => place 0xE#4 12 ||| place (regBits dr) 9 ||| place off9 0
  | .trapGetc => trapWord 0x20#8
  | .trapOut => trapWord 0x21#8
  | .trapPuts => trapWord 0x22#8
  | .trapIn => trapWord 0x23#8
  | .trapPutsp => trapWord 0x24#8
  | .trapHalt => trapWord 0x25#8
  | .trapUndefined v => trapWord v

/-- The bits of the word that decide what an instruction does: all but the ignored bits of 30_encoding.md R57. -/
def usedBits : Instr → Word
  | .br _ _ _ _ => 0xFFFF#16
  | .addReg _ _ _ => 0xFFE7#16
  | .addImm _ _ _ => 0xFFFF#16
  | .ld _ _ => 0xFFFF#16
  | .st _ _ => 0xFFFF#16
  | .jsr _ => 0xFFFF#16
  | .jsrr _ => 0xF9C0#16
  | .andReg _ _ _ => 0xFFE7#16
  | .andImm _ _ _ => 0xFFFF#16
  | .ldr _ _ _ => 0xFFFF#16
  | .str _ _ _ => 0xFFFF#16
  | .rti => 0xF000#16
  | .not _ _ => 0xFFC0#16
  | .ldi _ _ => 0xFFFF#16
  | .sti _ _ => 0xFFFF#16
  | .jmp _ => 0xF1C0#16
  | .res => 0xF000#16
  | .lea _ _ => 0xFFFF#16
  | .trapGetc => 0xF0FF#16
  | .trapOut => 0xF0FF#16
  | .trapPuts => 0xF0FF#16
  | .trapIn => 0xF0FF#16
  | .trapPutsp => 0xF0FF#16
  | .trapHalt => 0xF0FF#16
  | .trapUndefined _ => 0xF0FF#16

/-- The instruction read from a word given as the opcode table numbers its bits. Every row is one 16-bit Word
(30_encoding.md R50), so bits from `nbits` up are zero and bits from 16 up belong to no instruction. -/
def decodeTableWord (nbits w : Nat) : Option Instr :=
  match decode (BitVec.ofNat 16 (w % 2 ^ nbits)) with
  | .ok i => some i
  | .error _ => none

end Sys2Proof
end

