-- ==== Sys2Proof/Machine/State.lean ====
section
/-! DEFINITION. The state of the machine as plain data (spec/10_state.md), its value at reset (R25), and the reasons a
step can stop. -/

namespace Sys2Proof.Machine

/-- COND, the condition register: exactly one of three values (10_state.md R14). -/
inductive Cond where
  | pos | zro | neg
  deriving DecidableEq, Repr

/-- The reasons of a Faulted run; the execution loop defines one (10_state.md R16, 60_exceptions.md R181). -/
inductive FaultReason where
  | invalidOpcode (op : BitVec 4)
  deriving DecidableEq, Repr

/-- RUN, the run state (10_state.md R16). -/
inductive RunState where
  | running
  | halted
  | faulted (reason : FaultReason)
  deriving DecidableEq, Repr

/-- WAIT, the sub-state of a blocked trap routine (10_state.md R17): None, Getc, In. -/
inductive WaitState where
  | none
  | getc
  | inp
  deriving DecidableEq, Repr

/-- One entry of the console output stream OUT: a byte or a flush marker (50_interfaces.md R164, R165). -/
inductive OutItem where
  | byte (b : Byte)
  | flush
  deriving DecidableEq, Repr

/-- One record of the error-report stream ERR (50_interfaces.md R166). -/
inductive ErrRecord where
  | invalidTrapVector (v : BitVec 8)
  | invalidOpcode (op : BitVec 4)
  deriving DecidableEq, Repr

/-- The stored contents of MEM (10_state.md R18): (key, byte) pairs, keys strictly rising, no zero byte listed. Cell `a`
has the two keys `2a` (bits 15:8) and `2a+1` (bits 7:0).
DESIGN CHOICE (log 1), safe: no instruction can address half a cell (20_memory.md R30), so the split shows nowhere. -/
abbrev Memory := List Host.Cell

/-- The whole state of the core (10_state.md, introduction) with the environment's streams that the rules reach through
the ports (R26). KBSR and KBDR are the cells MEM[0xFE00] and MEM[0xFE02] (R19, R20) and live in `mem`. -/
structure State where
  /-- R0 to R7 (R10). -/
  regs : Vector Word 8
  /-- The program counter (R12). -/
  pc : Word
  /-- The condition register (R14). -/
  cond : Cond
  /-- The run state (R16). -/
  run : RunState
  /-- The wait sub-state (R17). -/
  wait : WaitState
  /-- MEM, 65536 Words (R18). -/
  mem : Memory
  /-- KBD, the keyboard's pending bytes, oldest first (R26). -/
  kbd : List Byte
  /-- OUT, the console output stream so far (R26). -/
  out : List OutItem
  /-- ERR, the error-report stream so far (R26). -/
  err : List ErrRecord
  /-- The batches of bytes the environment will append to KBD, one batch before each coming step (50_interfaces.md R163).
  The model's own field. DESIGN CHOICE (log 5), safe: every finite arrival schedule is a value of it. -/
  arrivals : List (List Byte)
  deriving DecidableEq, Repr

/-- Why a step stops with a fault. -/
inductive Fault where
  /-- Raised by `cycle` when `run = Faulted(reason)`: no step is taken (40_fetch_decode_dispatch.md R71). Safe: the spec
  takes no step there either. -/
  | faulted (reason : FaultReason)
  /-- Raised by PUTS and PUTSP when the string walk runs out of fuel (46_trap.md R145, "not finished"). The fuel is
  enough for every walk, so it is never raised (log 16). Safe: it is never a finished walk. -/
  | walkNotFinished
  deriving DecidableEq, Repr

/-- Why a step is refused. -/
inductive Refusal where
  /-- Raised by `exec` for an instruction that has no meaning yet; no arm of this model raises it. Safe. -/
  | notModelled (mnemonic : String)
  /-- Raised by `cycle` when `run = Halted`: the normal end of a run, after which no step is taken
  (40_fetch_decode_dispatch.md R71, 46_trap.md R141). Safe: the spec takes no step there either. -/
  | halted
  deriving DecidableEq, Repr

/-- The reset state for a choice of the OPEN parameter GPR_RESET and of the environment (10_state.md R25). -/
def State.resetWith (gprReset : Vector Word 8) (kbd : List Byte) (arrivals : List (List Byte)) : State where
  regs := gprReset
  pc := Config.entry
  cond := .zro
  run := .running
  wait := .none
  mem := []
  kbd := kbd
  out := []
  err := []
  arrivals := arrivals

/-- The machine right after reset with an empty image (10_state.md R25).
DESIGN CHOICE (log 3, log 4), unsafe: R0 to R7 zero, nothing pending on the keyboard and nothing to arrive. -/
def State.reset : State := State.resetWith Config.gprResetDefault [] []

end Sys2Proof.Machine
end

