-- ==== Sys2Proof/Machine/Ops.lean ====
section
/-! DEFINITION. The named operations over registers, memory and ports: the pseudocode primitives of spec/00_scope.md R8,
the two memory ports (20_memory.md), the keyboard, console and error ports (50_interfaces.md), trap entry
(60_exceptions.md R187) and the InvalidOpcode transition (R181). There is no return from a trap: R188 gives none, and
RTI does nothing (45_reserved.md R130). -/

namespace Sys2Proof.Machine

/-! ## The core's own registers -/

/-- `x[i]` (10_state.md R10). -/
def State.reg (s : State) (i : Reg) : Word := s.regs[i.val]

/-- `x[i] <- v` (10_state.md R10): no register is hardwired. -/
def State.setReg (s : State) (i : Reg) (v : Word) : State := { s with regs := s.regs.set i.val v }

/-- `pc <- v` (10_state.md R12). -/
def State.setPc (s : State) (v : Word) : State := { s with pc := v }

/-- `cond <- f` (10_state.md R14). -/
def State.setCond (s : State) (f : Cond) : State := { s with cond := f }

/-- `run <- r` (10_state.md R16). -/
def State.setRun (s : State) (r : RunState) : State := { s with run := r }

/-- `wait <- w` (10_state.md R17). -/
def State.setWait (s : State) (w : WaitState) : State := { s with wait := w }

/-! ## Stored memory -/

/-- What a byte key that no entry lists reads as: MEM is zero at reset (10_state.md R25; log 2). -/
def unlistedByte : Byte := 0x00#8

/-- The byte at a key. -/
def Memory.getByte : Memory → Nat → Byte
  | [], _ => unlistedByte
  | (k, b) :: rest, j => if j = k then b else Memory.getByte rest j

/-- The memory with no entry for a key. -/
def Memory.eraseByte (m : Memory) (j : Nat) : Memory := m.filter fun c => c.1 != j

/-- The memory with an entry added before the first entry of a higher key. -/
def Memory.insertByte : Memory → Nat → Byte → Memory
  | [], j, v => [(j, v)]
  | (k, b) :: rest, j, v => if j < k then (j, v) :: (k, b) :: rest else (k, b) :: Memory.insertByte rest j v

/-- The memory with a byte stored at a key, in canonical form again: no entry for a byte an unlisted key reads as. -/
def Memory.setByte (m : Memory) (j : Nat) (v : Byte) : Memory :=
  if v = unlistedByte then m.eraseByte j else (m.eraseByte j).insertByte j v

/-- The canonical form from a key on: keys rise strictly, lie inside the address space, and no unlisted byte is listed. -/
def Memory.wfFrom (lo : Nat) : Memory → Bool
  | [] => true
  | (k, b) :: rest =>
    decide (lo ≤ k) && decide (k < 2 * Config.memWords) && decide (b ≠ unlistedByte) && Memory.wfFrom (k + 1) rest

/-- The canonical form of a memory. -/
def Memory.wf (m : Memory) : Bool := Memory.wfFrom 0 m

/-- The key of bits 15:8 of a cell (log 1). -/
def highKey (a : Word) : Nat := 2 * a.toNat

/-- The key of bits 7:0 of a cell (log 1). -/
def lowKey (a : Word) : Nat := 2 * a.toNat + 1

/-- The Word a memory stores in cell `a`. -/
def Memory.getWord (m : Memory) (a : Word) : Word := m.getByte (highKey a) ++ m.getByte (lowKey a)

/-- The memory with Word `v` stored in cell `a`. -/
def Memory.setWord (m : Memory) (a : Word) (v : Word) : Memory :=
  (m.setByte (highKey a) (v.extractLsb' 8 8)).setByte (lowKey a) (v.extractLsb' 0 8)

/-- `MEM[a]`, the stored Word with no side effect (10_state.md R18). -/
def State.peek (s : State) (a : Word) : Word := s.mem.getWord a

/-- The stored byte at a key, with no side effect. -/
def State.peekByte (s : State) (k : Nat) : Byte := s.mem.getByte k

/-- `MEM[a] <- v` with no side effect (10_state.md R18). -/
def State.poke (s : State) (a v : Word) : State := { s with mem := s.mem.setWord a v }

/-! ## The keyboard port -/

/-- `zext_16(b)`: the Word with the same number (00_scope.md R7; D10, log 10). -/
def zext16 (b : Byte) : Word := b.setWidth 16

/-- `PollReady()`: whether a byte is pending (50_interfaces.md R161). -/
def State.pollReady (s : State) : Bool := !s.kbd.isEmpty

/-- `ReadByte()`: the oldest pending byte, taken from the queue; `none` when the caller holds (50_interfaces.md R162). -/
def State.readByte (s : State) : Option (Byte × State) :=
  match s.kbd with
  | [] => none
  | b :: rest => some (b, { s with kbd := rest })

/-- The environment's move between two steps or during a hold: append bytes to KBD (50_interfaces.md R163). -/
def State.arrive (s : State) (bs : List Byte) : State := { s with kbd := s.kbd ++ bs }

/-- The next batch of the arrival schedule arrives (50_interfaces.md R163; log 5). -/
def State.deliver (s : State) : State :=
  match s.arrivals with
  | [] => s
  | batch :: later => { s.arrive batch with arrivals := later }

/-! ## The console and error ports -/

/-- `Emit(b)`: append a byte to OUT (50_interfaces.md R164). -/
def State.emit (s : State) (b : Byte) : State := { s with out := s.out ++ [.byte b] }

/-- `Emit` of each byte in order (50_interfaces.md R164). -/
def State.emitAll (s : State) (bs : List Byte) : State := { s with out := s.out ++ bs.map .byte }

/-- `Flush()`: append a flush marker to OUT (50_interfaces.md R165). -/
def State.flush (s : State) : State := { s with out := s.out ++ [.flush] }

/-- `Report(e)`: append a record to ERR (50_interfaces.md R166). -/
def State.report (s : State) (e : ErrRecord) : State := { s with err := s.err ++ [e] }

/-! ## The memory ports -/

/-- What a ready poll stores in KBSR, given the stored word (20_memory.md R33; D9, log 7). -/
def kbsrReadyWord (stored : Word) : Word := Config.readyWord Config.kbsrReadyMode stored

/-- `KbsrSideEffect()` (20_memory.md R33). -/
def State.kbsrSideEffect (s : State) : State :=
  if s.pollReady then
    let polled := s.poke Config.kbsr (kbsrReadyWord (s.peek Config.kbsr))
    match polled.readByte with
    | some (b, taken) => taken.poke Config.kbdr (zext16 b)
    | none => polled
  else s.poke Config.kbsr 0x0000#16

/-- `MemRead(a, 1)`: the Word and the state after the read (20_memory.md R32). -/
def State.memRead (s : State) (a : Word) : Word × State :=
  if a = Config.kbsr then (s.kbsrSideEffect.peek a, s.kbsrSideEffect) else (s.peek a, s)

/-- `MemWrite(a, 1, v)` (20_memory.md R34). -/
def State.memWrite (s : State) (a v : Word) : State := s.poke a v

/-! ## Traps and abnormal conditions -/

/-- Trap entry: the one thing a TRAP saves is `x[7] <- pc`; no mode, flag or pc changes (60_exceptions.md R187,
46_trap.md R135). -/
def State.trapEntry (s : State) : State := s.setReg 7 s.pc

/-- `raise InvalidOpcode(op)` (60_exceptions.md R181). -/
def State.raiseInvalidOpcode (s : State) (op : BitVec 4) : State :=
  (s.report (.invalidOpcode op)).setRun (.faulted (.invalidOpcode op))

end Sys2Proof.Machine
end

