-- ==== Sys2Proof/Machine/Flags.lean ====
section
/-! DEFINITION. The condition flags: the one flag computation of the hardware (spec/40_fetch_decode_dispatch.md R75).
There is no carry and no overflow flag. -/

namespace Sys2Proof.Machine

/-- The flag of a 16-bit value: NEG if bit 15 is set, ZRO if it is 0, else POS (40_fetch_decode_dispatch.md R75). -/
def condOf (v : Word) : Cond :=
  if v.getLsbD 15 then .neg else if v = 0x0000#16 then .zro else .pos

/-- `setcc(i)`: set `cond` from the current value of `x[i]` (40_fetch_decode_dispatch.md R75). -/
def State.setcc (s : State) (i : Reg) : State := s.setCond (condOf (s.reg i))

/-- Write a result to its destination register, then `setcc` on it: the last two actions of the nine flag-setting
operations (40_fetch_decode_dispatch.md R76). -/
def State.writeResult (s : State) (dr : Reg) (v : Word) : State := (s.setReg dr v).setcc dr

/-- The condition test of BR (42_control.md R100). -/
def Cond.taken (c : Cond) (n z p : Bool) : Bool :=
  match c with
  | .neg => n
  | .zro => z
  | .pos => p

end Sys2Proof.Machine
end

