-- ==== Sys2Proof/Machine/Operands.lean ====
section
/-! DEFINITION. How operands are built from instruction fields (spec/30_encoding.md R53, R54; 43_load.md R114). Every sum
is a sum of Words, so modulo 2^16 (20_memory.md R46). `pc` is the incremented one (10_state.md R12). -/

namespace Sys2Proof.Machine

/-- `sext_N(v)`: a field of N bits, sign-extended to a Word (30_encoding.md R53). -/
def sext {n : Nat} (v : BitVec n) : Word := v.signExtend 16

/-- The PC-relative address `pc + sext_N(offset)` (30_encoding.md R54, 43_load.md R114). -/
def State.pcRelative {n : Nat} (s : State) (off : BitVec n) : Word := s.pc + sext off

/-- The base-plus-offset address `x[BaseR] + sext_6(offset6)` (43_load.md R114). -/
def State.basePlus (s : State) (baseR : Reg) (off6 : BitVec 6) : Word := s.reg baseR + sext off6

/-- The indirect address: the Word read through the read port at `pc + sext_9(offset9)`, and the state after that read
(43_load.md R114). -/
def State.indirect (s : State) (off9 : BitVec 9) : Word × State := s.memRead (s.pcRelative off9)

end Sys2Proof.Machine
end

