-- ==== Sys2Proof/Machine/Control.lean ====
section
/-! DEFINITION. BR, JMP, JSR and JSRR (spec/42_control.md). Each runs after the fetch and the increment of pc, so `s.pc`
is the address of the instruction plus 1. There is no delay slot. -/

namespace Sys2Proof.Machine

/-- BR, conditional branch (42_control.md R100, 90_conflicts.md C6). -/
def execBr (n z p : Bool) (off9 : BitVec 9) (s : State) : Host.Outcome State Fault Refusal :=
  .next (if s.cond.taken n z p then s.setPc (s.pcRelative off9) else s)

/-- JMP, jump through a register (42_control.md R102). -/
def execJmp (baseR : Reg) (s : State) : Host.Outcome State Fault Refusal :=
  .next (s.setPc (s.reg baseR))

/-- JSR: link, then PC-relative jump (42_control.md R103). -/
def execJsr (off11 : BitVec 11) (s : State) : Host.Outcome State Fault Refusal :=
  .next ((s.setReg 7 s.pc).setPc (s.pcRelative off11))

/-- JSRR: link first, then the base register is read from the register file after that write, so JSRR R7 falls through
(42_control.md R104, 70_reset_and_hazards.md R212). -/
def execJsrr (baseR : Reg) (s : State) : Host.Outcome State Fault Refusal :=
  let linked := s.setReg 7 s.pc
  .next (linked.setPc (linked.reg baseR))

end Sys2Proof.Machine
end

