-- ==== Sys2Proof/Machine/Load.lean ====
section
/-! DEFINITION. LD, LDI, LDR and LEA (spec/43_load.md). Every memory read is a `memRead`, with the keyboard side effect
at 0xFE00. -/

namespace Sys2Proof.Machine

/-- Read a Word through the read port into a register, then set the flags: the shared tail of the three loads. -/
def State.loadFrom (s : State) (dr : Reg) (ea : Word) : State :=
  (s.memRead ea).2.writeResult dr (s.memRead ea).1

/-- LD, load PC-relative (43_load.md R110). -/
def execLd (dr : Reg) (off9 : BitVec 9) (s : State) : Host.Outcome State Fault Refusal :=
  .next (s.loadFrom dr (s.pcRelative off9))

/-- LDI, load indirect: pointer read, then data read (43_load.md R111). -/
def execLdi (dr : Reg) (off9 : BitVec 9) (s : State) : Host.Outcome State Fault Refusal :=
  .next ((s.indirect off9).2.loadFrom dr (s.indirect off9).1)

/-- LDR, load base plus offset (43_load.md R112). -/
def execLdr (dr baseR : Reg) (off6 : BitVec 6) (s : State) : Host.Outcome State Fault Refusal :=
  .next (s.loadFrom dr (s.basePlus baseR off6))

/-- LEA, load effective address: no memory access, and it sets the flags (43_load.md R113). -/
def execLea (dr : Reg) (off9 : BitVec 9) (s : State) : Host.Outcome State Fault Refusal :=
  .next (s.writeResult dr (s.pcRelative off9))

end Sys2Proof.Machine
end

