-- ==== Sys2Proof/Machine/Reserved.lean ====
section
/-! DEFINITION. RTI and RES (spec/45_reserved.md): both advance pc, which the step has done already, and do nothing
else.
DEDUCED (log 14), unsafe: the document also calls RES an invalid opcode; the spec follows the no-op (90_conflicts.md C1). -/

namespace Sys2Proof.Machine

/-- RTI, a no-operation: it returns from nothing (45_reserved.md R130). -/
def execRti (s : State) : Host.Outcome State Fault Refusal := .next s

/-- RES, a no-operation: the run goes on (45_reserved.md R131). -/
def execRes (s : State) : Host.Outcome State Fault Refusal := .next s

end Sys2Proof.Machine
end

