-- ==== Sys2Proof/Machine/Store.lean ====
section
/-! DEFINITION. ST, STI and STR (spec/44_store.md). Every memory write is a `memWrite`: one whole Word, no side effect at
any address; no flag changes. -/

namespace Sys2Proof.Machine

/-- ST, store PC-relative (44_store.md R120). -/
def execSt (sr : Reg) (off9 : BitVec 9) (s : State) : Host.Outcome State Fault Refusal :=
  .next (s.memWrite (s.pcRelative off9) (s.reg sr))

/-- STI, store indirect: one read through the read port, then one write (44_store.md R121). -/
def execSti (sr : Reg) (off9 : BitVec 9) (s : State) : Host.Outcome State Fault Refusal :=
  .next ((s.indirect off9).2.memWrite (s.indirect off9).1 ((s.indirect off9).2.reg sr))

/-- STR, store base plus offset (44_store.md R122). -/
def execStr (sr baseR : Reg) (off6 : BitVec 6) (s : State) : Host.Outcome State Fault Refusal :=
  .next (s.memWrite (s.basePlus baseR off6) (s.reg sr))

end Sys2Proof.Machine
end

