-- ==== Sys2Proof/Machine/Trap.lean ====
section
/-! DEFINITION. TRAP and its routines (spec/46_trap.md). Every TRAP begins with `trapEntry` (R135); the routine runs
inside the instruction's step and no vector is read from memory (R143). GETC and IN hold while no byte is pending: the
step then ends with `wait` set and the following steps finish the routine (R136, R139; 10_state.md R17; log 13). -/

namespace Sys2Proof.Machine

/-! ## Keyboard input -/

/-- Take a pending byte into R0 and set the flags, ending the wait, after `echo` has had the byte; with no byte pending
nothing changes (the hold of 50_interfaces.md R162). -/
def State.finishRead (s : State) (echo : State → Byte → State) : State :=
  match s.readByte with
  | none => s
  | some (b, s1) => (echo (s1.setWait .none) b).writeResult 0 (zext16 b)

/-- The rest of GETC from its wait on: no echo (46_trap.md R136). -/
def State.finishGetc (s : State) : State := s.finishRead (fun s1 _ => s1)

/-- The rest of IN from its wait on: the byte is echoed (46_trap.md R139). -/
def State.finishIn (s : State) : State := s.finishRead State.emit

/-- The bytes of the prompt (46_trap.md R139): the OPEN parameter IN_PROMPT (log 6). -/
def inPrompt : List Byte := Config.inPrompt

/-- TRAP GETC, vector 0x20 (46_trap.md R136). -/
def execTrapGetc (s : State) : Host.Outcome State Fault Refusal :=
  .next (s.trapEntry.setWait .getc).finishGetc

/-- TRAP IN, vector 0x23: the prompt comes before the wait (46_trap.md R139). -/
def execTrapIn (s : State) : Host.Outcome State Fault Refusal :=
  .next ((s.trapEntry.emitAll inPrompt).setWait .inp).finishIn

/-! ## Console output -/

/-- TRAP OUT, vector 0x21: the low byte of R0 (46_trap.md R137). -/
def execTrapOut (s : State) : Host.Outcome State Fault Refusal :=
  .next (s.trapEntry.emit ((s.trapEntry.reg 0).extractLsb' 0 8))

/-- What PUTS emits for a non-zero string Word: its low byte (46_trap.md R138). -/
def putsBytes (w : Word) : List Byte := [w.extractLsb' 0 8]

/-- What PUTSP emits for a non-zero string Word: its low byte always, then its high byte if that is not zero
(46_trap.md R140, D27). -/
def putspBytes (w : Word) : List Byte :=
  if w.extractLsb' 8 8 = 0x00#8 then [w.extractLsb' 0 8] else [w.extractLsb' 0 8, w.extractLsb' 8 8]

/-- The string walk of PUTS and PUTSP from address `a` (46_trap.md R138, R140): read a Word through the read port, stop
at a zero Word, else emit its bytes and go on at `a + 1`, modulo 2^16. `none`: out of fuel, not finished (R145). -/
def State.walk (bytesOf : Word → List Byte) : Nat → Word → State → Option State
  | 0, _, _ => none
  | fuel + 1, a, s =>
    if (s.memRead a).1 = 0x0000#16 then some (s.memRead a).2
    else State.walk bytesOf fuel (a + 1) ((s.memRead a).2.emitAll (bytesOf (s.memRead a).1))

/-- Fuel that every walk ends within: among 65536 reads in a row one is of 0xFE00, which takes a pending byte or, with
none pending, reads zero and ends the walk (46_trap.md R145); no byte can arrive during a step (50_interfaces.md R163).
DESIGN CHOICE (log 16), safe: running out of fuel is a fault, never a finished walk. -/
def State.walkFuel (s : State) : Nat := Config.memWords * (s.kbd.length + 1)

/-- PUTS and PUTSP from the string address in R0 on. -/
def State.putString (s : State) (bytesOf : Word → List Byte) : Host.Outcome State Fault Refusal :=
  match State.walk bytesOf s.walkFuel (s.reg 0) s with
  | some s' => .next s'
  | none => .fault .walkNotFinished

/-- TRAP PUTS, vector 0x22 (46_trap.md R138). -/
def execTrapPuts (s : State) : Host.Outcome State Fault Refusal := s.trapEntry.putString putsBytes

/-- TRAP PUTSP, vector 0x24 (46_trap.md R140). -/
def execTrapPutsp (s : State) : Host.Outcome State Fault Refusal := s.trapEntry.putString putspBytes

/-! ## HALT and undefined vectors -/

/-- TRAP HALT, vector 0x25: a flush marker, then the run ends (46_trap.md R141). -/
def execTrapHalt (s : State) : Host.Outcome State Fault Refusal :=
  .next (s.trapEntry.flush.setRun .halted)

/-- TRAP with an undefined vector: one report, and the run goes on (46_trap.md R142, 90_conflicts.md C2).
DEDUCED (log 15), unsafe: the document points at an open question that it does not hold. -/
def execTrapUndefined (vect : BitVec 8) (s : State) : Host.Outcome State Fault Refusal :=
  .next (s.trapEntry.report (.invalidTrapVector vect))

end Sys2Proof.Machine
end

