-- ==== Sys2Proof/Machine/Cycle.lean ====
section
/-! DEFINITION. What one step does (spec/40_fetch_decode_dispatch.md R70 to R73), when one is taken (R71), and how a held
trap routine goes on (46_trap.md R136, R139). `Step.lean` only calls these. -/

namespace Sys2Proof.Machine

/-- Fetch: the Word at pc through the read port, then `pc <- pc + 1` (R72, R73). -/
def State.fetch (s : State) : Word × State :=
  ((s.memRead s.pc).1, (s.memRead s.pc).2.setPc (s.pc + 1#16))

/-- Decode a fetched Word and run its handler; a Word of no opcode raises InvalidOpcode, which no Word does
(R70, 60_exceptions.md R181). -/
def executeWord (w : Word) (s : State) : Host.Outcome State Fault Refusal :=
  match decode w with
  | .ok i => exec i s
  | .error (.invalidOpcode op) => .next (s.raiseInvalidOpcode op)

/-- One fetch-decode-execute cycle (R70). -/
def fetchExecute (s : State) : Host.Outcome State Fault Refusal := executeWord s.fetch.1 s.fetch.2

/-- The core's part of a step: no step in Halted or Faulted; a held routine goes on; else a cycle (R71).
DESIGN CHOICE (log 12, log 13), safe: Halted is answered by a refusal of its own name, Faulted by a fault, and a hold
that no byte lifts by the same state again. -/
def cycle (s : State) : Host.Outcome State Fault Refusal :=
  match s.run with
  | .halted => .refused .halted
  | .faulted reason => .fault (.faulted reason)
  | .running =>
    match s.wait with
    | .none => fetchExecute s
    | .getc => .next s.finishGetc
    | .inp => .next s.finishIn

/-- The word of an instruction given as the opcode table numbers its bits (30_encoding.md R50: one 16-bit Word). -/
def tableWord (nbits w : Nat) : Word := BitVec.ofNat 16 (w % 2 ^ nbits)

/-- A state whose next step fetches Word `w` at its pc: the stored cell, and a machine that takes a cycle. At
pc = 0xFE00 the fetch polls the keyboard first and may change the word (20_memory.md R33). -/
def State.placeWord (s : State) (w : Word) : State :=
  ((s.poke s.pc w).setRun .running).setWait .none

end Sys2Proof.Machine
end

