-- ==== Sys2Proof/Machine/Step.lean ====
section
/-! DEFINITION. The step of the machine: the bytes due arrive on the keyboard (spec/50_interfaces.md R163; log 5), then
the core's part (`cycle`). -/

namespace Sys2Proof.Machine

/-- One step. -/
def step (s : State) : Host.Outcome State Fault Refusal := cycle s.deliver

/-- The state with an instruction, given as the opcode table numbers its bits, stored where the next step fetches
(log 17: it stands for the load of a program from outside the machine). -/
def State.withFetchWord (s : State) (nbits w : Nat) : State := s.placeWord (tableWord nbits w)

end Sys2Proof.Machine
end

