-- ==== Sys2Proof/Machine/Loader.lean ====
section
/-! DEFINITION. The image loader and the boot path (spec/70_reset_and_hazards.md R202 to R206). The load is a function
from a byte source to a memory or an error, and the boot from it to a first state or an error (R202, D19); neither is a
step of the machine. -/

namespace Sys2Proof.Machine

/-- What the byte source answers once its bytes are used up: end of stream, or an I/O error (50_interfaces.md R168). `ε`
is the type of the source's own errors, opaque to the hardware (60_exceptions.md R180).
DESIGN CHOICE (log 23), safe: the loader works for every type of errors and can only pass an error on. -/
inductive SourceEnd (ε : Type) where
  | eof
  | ioError (e : ε)
  deriving DecidableEq, Repr

/-- The byte source of an image: its bytes in order, then its end (50_interfaces.md R168). -/
structure ImageSource (ε : Type) where
  bytes : List Byte
  ending : SourceEnd ε
  deriving DecidableEq, Repr

/-- The results of a load that fails: `truncated` records nothing, `io` the underlying error (60_exceptions.md R180,
R183). -/
inductive LoadError (ε : Type) where
  | truncated
  | io (e : ε)
  deriving DecidableEq, Repr

/-- The result of a load at the end of the stream before the two bytes of the origin (70_reset_and_hazards.md R204,
R205). -/
def endOfOrigin {ε : Type} (ending : SourceEnd ε) : Except (LoadError ε) Memory :=
  match ending with
  | .eof => .error .truncated
  | .ioError e => .error (.io e)

/-- The result of a load at the end of the stream among the words: an image may end there, an I/O error may not
(70_reset_and_hazards.md R204, R205). -/
def endOfWords {ε : Type} (ending : SourceEnd ε) (m : Memory) : Except (LoadError ε) Memory :=
  match ending with
  | .eof => .ok m
  | .ioError e => .error (.io e)

/-- Store big-endian words from address `a` upward; at the top of the address space the load is done whatever is left
of the stream, and a lone last byte is dropped (70_reset_and_hazards.md R204; D18, log 17). -/
def loadWords {ε : Type} (ending : SourceEnd ε) : List Byte → Nat → Memory → Except (LoadError ε) Memory
  | [], a, m => if a < Config.memWords then endOfWords ending m else .ok m
  | [_], a, m => if a < Config.memWords then endOfWords ending m else .ok m
  | h :: l :: rest, a, m =>
    if a < Config.memWords then loadWords ending rest (a + 1) (m.setWord (BitVec.ofNat 16 a) (h ++ l)) else .ok m

/-- `Load(src)` on zeroed memory: the origin, then the words (70_reset_and_hazards.md R204). -/
def load {ε : Type} (src : ImageSource ε) : Except (LoadError ε) Memory :=
  match src.bytes with
  | b0 :: b1 :: rest => loadWords src.ending rest (b0 ++ b1 : Word).toNat []
  | [] | [_] => endOfOrigin src.ending

/-- The boot sequence: reset, load, and on success the first state of the run; on an error the run does not start
(70_reset_and_hazards.md R202). -/
def boot {ε : Type} (gprReset : Vector Word 8) (kbd : List Byte) (arrivals : List (List Byte)) (src : ImageSource ε) :
    Except (LoadError ε) State :=
  match load src with
  | .ok m => .ok { State.resetWith gprReset kbd arrivals with mem := m }
  | .error e => .error e

end Sys2Proof.Machine
end

