-- ==== Sys2Proof/Safety.lean ====
section
/-! DEFINITION. What a sound state of the machine is, in the terms the statements use: what the spec says holds between
any two steps. -/

namespace Sys2Proof.Machine

/-- `wait` is set only inside a trap routine of a running machine that found no byte, after `x[7] <- pc`
(spec/10_state.md R17). -/
abbrev State.HoldOk (s : State) : Prop :=
  s.wait ≠ .none → s.run = .running ∧ s.reg 7 = s.pc ∧ s.kbd = []

/-- A halted machine has flushed, and `x[7]` equals `pc` (40_fetch_decode_dispatch.md R78, 70_reset_and_hazards.md
R211). -/
abbrev State.HaltOk (s : State) : Prop :=
  s.run = .halted → s.out.getLast? = some .flush ∧ s.reg 7 = s.pc ∧ s.wait = .none

/-- Whether the run is Faulted. -/
def RunState.isFaulted : RunState → Bool
  | .faulted _ => true
  | .running | .halted => false

/-- Whether a record reports a TRAP with one of the 250 undefined vectors (30_encoding.md R59). -/
def ErrRecord.isUndefinedVector : ErrRecord → Bool
  | .invalidTrapVector v => !definedVector v
  | .invalidOpcode _ => false

/-- The invariant: memory is in canonical form, holds and halts are as the spec says, the run is not Faulted
(60_exceptions.md R181), and ERR holds only records of undefined vectors (R182). -/
abbrev State.Inv (s : State) : Prop :=
  s.mem.wf = true ∧ s.HoldOk ∧ s.HaltOk ∧ s.run.isFaulted = false ∧ ∀ e ∈ s.err, e.isUndefinedVector = true

/-- The byte keys of the two keyboard cells KBSR and KBDR, the only cells a read can change (20_memory.md R33). -/
def keyboardKey (k : Nat) : Bool :=
  k == highKey Config.kbsr || k == lowKey Config.kbsr || k == highKey Config.kbdr || k == lowKey Config.kbdr

/-- The register whose value an instruction sets the flags from: the nine operations of 40_fetch_decode_dispatch.md R76,
each on its destination register. -/
def flagDest : Instr → Option Reg
  | .addReg dr _ _ | .addImm dr _ _ | .andReg dr _ _ | .andImm dr _ _ | .not dr _ | .ld dr _ | .ldi dr _ | .ldr dr _ _
  | .lea dr _ => some dr
  | .trapGetc | .trapIn => some 0
  | .br _ _ _ _ | .st _ _ | .jsr _ | .jsrr _ | .str _ _ _ | .rti | .sti _ _ | .jmp _ | .res | .trapOut | .trapPuts
  | .trapPutsp | .trapHalt | .trapUndefined _ => none

/-- The instructions that write the link register R7 by their own role: JSR, JSRR and every TRAP (10_state.md R11). -/
def links : Instr → Bool
  | .jsr _ | .jsrr _ | .trapGetc | .trapOut | .trapPuts | .trapIn | .trapPutsp | .trapHalt | .trapUndefined _ => true
  | .br _ _ _ _ | .addReg _ _ _ | .addImm _ _ _ | .ld _ _ | .st _ _ | .andReg _ _ _ | .andImm _ _ _ | .ldr _ _ _
  | .str _ _ _ | .rti | .not _ _ | .ldi _ _ | .sti _ _ | .jmp _ | .res | .lea _ _ => false

/-- The instructions that write pc after the increment of every step: BR, JMP, JSR and JSRR (10_state.md R13). -/
def transfers : Instr → Bool
  | .br _ _ _ _ | .jmp _ | .jsr _ | .jsrr _ => true
  | .addReg _ _ _ | .addImm _ _ _ | .ld _ _ | .st _ _ | .andReg _ _ _ | .andImm _ _ _ | .ldr _ _ _ | .str _ _ _
  | .rti | .not _ _ | .ldi _ _ | .sti _ _ | .res | .lea _ _ | .trapGetc | .trapOut | .trapPuts | .trapIn
  | .trapPutsp | .trapHalt | .trapUndefined _ => false

/-- The instructions that read memory through the read port beyond the fetch (20_memory.md R35). -/
def readsMemory : Instr → Bool
  | .ld _ _ | .ldi _ _ | .ldr _ _ _ | .sti _ _ | .trapPuts | .trapPutsp => true
  | .br _ _ _ _ | .addReg _ _ _ | .addImm _ _ _ | .st _ _ | .jsr _ | .jsrr _ | .andReg _ _ _ | .andImm _ _ _
  | .str _ _ _ | .rti | .not _ _ | .jmp _ | .res | .lea _ _ | .trapGetc | .trapOut | .trapIn | .trapHalt
  | .trapUndefined _ => false

/-- Every read of memory that the instruction makes misses 0xFE00, so none polls the keyboard (20_memory.md R32, R35): the
addresses are those its meaning reads at, and a string walk misses 0xFE00 if a zero Word comes before it. -/
def missesKbsr (s : State) : Instr → Prop
  | .ld _ off9 | .sti _ off9 => s.pcRelative off9 ≠ Config.kbsr
  | .ldr _ baseR off6 => s.basePlus baseR off6 ≠ Config.kbsr
  | .ldi _ off9 => s.pcRelative off9 ≠ Config.kbsr ∧ s.peek (s.pcRelative off9) ≠ Config.kbsr
  | .trapPuts | .trapPutsp => ∃ n, n < Config.memWords ∧
    (∀ k, k ≤ n → s.reg 0 + BitVec.ofNat 16 k ≠ Config.kbsr) ∧ s.peek (s.reg 0 + BitVec.ofNat 16 n) = 0x0000#16
  | .br _ _ _ _ | .addReg _ _ _ | .addImm _ _ _ | .st _ _ | .jsr _ | .jsrr _ | .andReg _ _ _ | .andImm _ _ _
  | .str _ _ _ | .rti | .not _ _ | .jmp _ | .res | .lea _ _ | .trapGetc | .trapOut | .trapIn | .trapHalt
  | .trapUndefined _ => True

/-- The cell an instruction stores to, computed as its meaning computes it (20_memory.md R35). -/
def storeAddr (s : State) : Instr → Option Word
  | .st _ off9 => some (s.pcRelative off9)
  | .sti _ off9 => some (s.indirect off9).1
  | .str _ baseR off6 => some (s.basePlus baseR off6)
  | .br _ _ _ _ | .addReg _ _ _ | .addImm _ _ _ | .ld _ _ | .jsr _ | .jsrr _ | .andReg _ _ _ | .andImm _ _ _
  | .ldr _ _ _ | .rti | .not _ _ | .ldi _ _ | .jmp _ | .res | .lea _ _ | .trapGetc | .trapOut | .trapPuts | .trapIn
  | .trapPutsp | .trapHalt | .trapUndefined _ => none

/-- `t` is reached from `s` by steps that each give a next state. -/
inductive Reaches : State → State → Prop where
  | start (s : State) : Reaches s s
  | next {s t u : State} : Reaches s t → step t = .next u → Reaches s u

end Sys2Proof.Machine
end

