-- ==== Sys2Proof/Certificates/Slice0/Obligations.lean ====
section
/-! DEFINITION. What is claimed of the machine, one `def Obligations.<Name> : Prop` each. The docstring says what of the
spec a statement formalises, and where it rests on a decision of the spec or a choice of the model. -/

open Sys2Proof Sys2Proof.Machine

/-! ## Encoding -/

/-- Decoding the word `encode` gives a well-formed instruction gives that instruction back, for all twenty-five rows and
every value of every field. The field positions are the spec's decisions D1 to D4 (log 8). -/
def Obligations.DecodeOfEncode : Prop :=
  ∀ i : Instr, i.wellFormed = true → decode (encode i) = .ok i

/-- The other direction: what a word decodes to is well-formed, and its encoding has the word's own value in every bit
that the decoder uses (D1 to D4, D6; log 8, log 9). -/
def Obligations.EncodeOfDecodeOnUsedBits : Prop :=
  ∀ (w : Word) (i : Instr), decode w = .ok i → i.wellFormed = true ∧ encode i &&& usedBits i = w &&& usedBits i

/-- Ignored bits: two words that agree on the used bits of the instruction one of them decodes to decode alike
(spec/30_encoding.md R57, a decision of the spec, D6; log 9). -/
def Obligations.IgnoredBitsDoNotMatter : Prop :=
  ∀ (w w' : Word) (i : Instr), decode w = .ok i → w' &&& usedBits i = w &&& usedBits i → decode w' = .ok i

/-- Every Word decodes to an instruction, so InvalidOpcode is unreachable (30_encoding.md R56, 60_exceptions.md R181;
opcode numbers are decision D1, log 8). -/
def Obligations.EveryWordDecodes : Prop :=
  ∀ (w : Word) (s : State), ∃ i : Instr, decode w = .ok i ∧ executeWord w s = exec i s

/-- The decoding procedure, opcode by opcode, with every operand's bits and every trap vector (30_encoding.md R55, R59,
R61; D1 to D4, log 8). -/
def Obligations.DecodingProcedure : Prop :=
  ∀ w : Word,
    let r := fun lo => (w.extractLsb' lo 3).toFin
    let op := w.extractLsb' 12 4
    (op = 0#4 → decode w = .ok (.br (w.getLsbD 11) (w.getLsbD 10) (w.getLsbD 9) (w.extractLsb' 0 9))) ∧
    (op = 1#4 → w.getLsbD 5 = true → decode w = .ok (.addImm (r 9) (r 6) (w.extractLsb' 0 5))) ∧
    (op = 1#4 → w.getLsbD 5 = false → decode w = .ok (.addReg (r 9) (r 6) (r 0))) ∧
    (op = 2#4 → decode w = .ok (.ld (r 9) (w.extractLsb' 0 9))) ∧
    (op = 3#4 → decode w = .ok (.st (r 9) (w.extractLsb' 0 9))) ∧
    (op = 4#4 → w.getLsbD 11 = true → decode w = .ok (.jsr (w.extractLsb' 0 11))) ∧
    (op = 4#4 → w.getLsbD 11 = false → decode w = .ok (.jsrr (r 6))) ∧
    (op = 5#4 → w.getLsbD 5 = true → decode w = .ok (.andImm (r 9) (r 6) (w.extractLsb' 0 5))) ∧
    (op = 5#4 → w.getLsbD 5 = false → decode w = .ok (.andReg (r 9) (r 6) (r 0))) ∧
    (op = 6#4 → decode w = .ok (.ldr (r 9) (r 6) (w.extractLsb' 0 6))) ∧
    (op = 7#4 → decode w = .ok (.str (r 9) (r 6) (w.extractLsb' 0 6))) ∧
    (op = 8#4 → decode w = .ok .rti) ∧
    (op = 9#4 → decode w = .ok (.not (r 9) (r 6))) ∧
    (op = 10#4 → decode w = .ok (.ldi (r 9) (w.extractLsb' 0 9))) ∧
    (op = 11#4 → decode w = .ok (.sti (r 9) (w.extractLsb' 0 9))) ∧
    (op = 12#4 → decode w = .ok (.jmp (r 6))) ∧
    (op = 13#4 → decode w = .ok .res) ∧
    (op = 14#4 → decode w = .ok (.lea (r 9) (w.extractLsb' 0 9))) ∧
    (op = 15#4 → ∀ v, w.extractLsb' 0 8 = v →
      (v = 0x20#8 → decode w = .ok .trapGetc) ∧ (v = 0x21#8 → decode w = .ok .trapOut) ∧
      (v = 0x22#8 → decode w = .ok .trapPuts) ∧ (v = 0x23#8 → decode w = .ok .trapIn) ∧
      (v = 0x24#8 → decode w = .ok .trapPutsp) ∧ (v = 0x25#8 → decode w = .ok .trapHalt) ∧
      (v.toNat < 0x20 ∨ 0x25 < v.toNat → decode w = .ok (.trapUndefined v)))

/-- Words of the spec's test vectors and worked examples, one or more of each family, decode to what they stand for
(41_alu.md, 42_control.md, 43_load.md, 44_store.md, 45_reserved.md, 46_trap.md). All rest on the field positions of
decisions D1 to D4 (log 8), and 0x46BF, 0xDFFF and 0xFF25 on the ignored bits of D6 too (log 9). -/
def Obligations.SampleWordsDecode : Prop :=
  decode 0x14C4#16 = .ok (.addReg 2 3 4) ∧ decode 0x127F#16 = .ok (.addImm 1 1 0b11111#5) ∧
  decode 0x92BF#16 = .ok (.not 1 2) ∧ decode 0x0402#16 = .ok (.br false true false 2#9) ∧
  decode 0x4803#16 = .ok (.jsr 3#11) ∧ decode 0x46BF#16 = .ok (.jsrr 2) ∧ decode 0xA002#16 = .ok (.ldi 0 2#9) ∧
  decode 0x68BF#16 = .ok (.ldr 4 2 0x3F#6) ∧ decode 0x7742#16 = .ok (.str 3 5 2#6) ∧
  decode 0xDFFF#16 = .ok .res ∧ decode 0xFF25#16 = .ok .trapHalt ∧ decode 0xF026#16 = .ok (.trapUndefined 0x26#8)

/-- Sign extension (30_encoding.md R53): the value of the formula, and the same two's-complement number as the field. -/
def Obligations.SignExtension : Prop :=
  ∀ (n : Nat) (v : BitVec n), 1 ≤ n → n ≤ 16 →
    (sext v).toNat = (if v.getLsbD (n - 1) then v.toNat + 2 ^ 16 - 2 ^ n else v.toNat) ∧ (sext v).toInt = v.toInt

/-! ## The step -/

/-- A step of a running machine that is not held runs the instruction it fetches: the bytes due arrive (log 5), the Word
at pc is read through the read port, pc advances by one, and `exec` runs the decoded instruction. At every pc but
0xFE00 the Word is the stored one and the read changes nothing. -/
def Obligations.StepRunsDecodedInstruction : Prop :=
  ∀ (s : State) (i : Instr), s.run = .running → s.wait = .none →
    (decode (s.deliver.memRead s.pc).1 = .ok i → step s = exec i ((s.deliver.memRead s.pc).2.setPc (s.pc + 1#16))) ∧
    (s.pc ≠ 0xFE00#16 → decode (s.peek s.pc) = .ok i → step s = exec i (s.deliver.setPc (s.pc + 1#16)))

/-- When a step is taken (40_fetch_decode_dispatch.md R71): never in Halted or Faulted; while Running always; and in a
hold the step completes the routine, or holds on, and fetches nothing. Which outcome answers "no step" is the model's
choice (log 12), that bytes arrive at the start of the step is log 5, the hold as steps is decision D15 (log 13), and
that a running machine always has a next state rests on PUTS and PUTSP always ending (log 16). -/
def Obligations.StepIsTakenExactlyWhenRunning : Prop :=
  ∀ s : State,
    (s.run = .halted → step s = .refused .halted) ∧
    (∀ r, s.run = .faulted r → step s = .fault (.faulted r)) ∧
    (s.run = .running → ∃ t, step s = .next t) ∧
    (s.run = .running → s.wait ≠ .none → s.deliver.kbd = [] → step s = .next s.deliver) ∧
    (∀ b rest, s.run = .running → s.wait ≠ .none → s.deliver.kbd = b :: rest →
      ∃ t, step s = .next t ∧ t.wait = .none ∧ t.pc = s.pc ∧ t.mem = s.mem ∧ t.kbd = rest)

/-- Fetching from 0xFE00 polls the keyboard and runs the updated KBSR word (40_fetch_decode_dispatch.md R72). With nothing
pending that word is 0x0000, and the step stores it and does nothing else but advance pc. With a byte pending it is the
stored word with bit 15 set, run on the polled state; if bits 14:12 were zero it is an RTI, and the step does nothing
more. The bytes due arrive first (log 5); the kept bits are decision D9 (log 7), the zero-extended byte in KBDR is D10
(log 10), that 0x0000 is a BR never taken is D1 and D4 (log 8), and that opcode 1000 is an RTI that does nothing is D1
and D7 (log 8, log 14). -/
def Obligations.FetchFromKbsrPolls : Prop :=
  ∀ s : State, s.run = .running → s.wait = .none → s.pc = 0xFE00#16 →
    (s.deliver.kbd = [] → step s = .next ((s.deliver.poke 0xFE00#16 0x0000#16).setPc 0xFE01#16)) ∧
    (∀ b rest, s.deliver.kbd = b :: rest →
      let w := s.peek 0xFE00#16 ||| 0x8000#16
      let t := { ((s.deliver.poke 0xFE00#16 w).poke 0xFE02#16 (b.setWidth 16)).setPc 0xFE01#16 with kbd := rest }
      step s = executeWord w t ∧ ((s.peek 0xFE00#16).extractLsb' 12 3 = 0#3 → step s = .next t))

/-! ## Invariants -/

/-- Every step keeps the invariant: memory canonical, holds and halts as 10_state.md R17 and 70_reset_and_hazards.md R211
have them, never Faulted, and ERR only ever reports undefined vectors. -/
def Obligations.StepKeepsInvariant : Prop :=
  ∀ s t : State, s.Inv → step s = .next t → t.Inv

/-- The invariant holds at reset, for every choice of GPR_RESET and of the keyboard. -/
def Obligations.ResetMeetsInvariant : Prop :=
  State.reset.Inv ∧ ∀ gpr kbd arrivals, (State.resetWith gpr kbd arrivals).Inv

/-- No run of any image is ever Faulted (60_exceptions.md R181), and all of its states meet the invariant. -/
def Obligations.BootedRunsKeepInvariant : Prop :=
  ∀ (ε : Type) gpr kbd arrivals (src : ImageSource ε) s t, boot gpr kbd arrivals src = .ok s → Reaches s t →
    t.Inv ∧ ∀ r, t.run ≠ .faulted r

/-- The reset values the spec gives (10_state.md R25, 70_reset_and_hazards.md R200): pc, cond, run, wait, every cell of
MEM, OUT and ERR. R0 to R7, KBD and the arrivals are the arguments; the spec states no value for them (log 3, log 4). -/
def Obligations.ResetValues : Prop :=
  ∀ gpr kbd arrivals,
    let s := State.resetWith gpr kbd arrivals
    s.pc = 0x3000#16 ∧ s.cond = .zro ∧ s.run = .running ∧ s.wait = .none ∧ (∀ a : Word, s.peek a = 0x0000#16) ∧
    s.out = [] ∧ s.err = [] ∧ s.regs = gpr ∧ s.kbd = kbd ∧ s.arrivals = arrivals

/-! ## Memory ports -/

/-- The read port (20_memory.md R32): at 0xFE00 the side effect runs before the value is taken; elsewhere the stored Word
is returned and nothing changes. -/
def Obligations.ReadPort : Prop :=
  ∀ (s : State) (a : Word),
    (a ≠ 0xFE00#16 → s.memRead a = (s.peek a, s)) ∧
    s.memRead 0xFE00#16 = (s.kbsrSideEffect.peek 0xFE00#16, s.kbsrSideEffect)

/-- The KBSR side effect (20_memory.md R33). That a ready poll keeps bits 14:0 is the spec's decision D9 (log 7), the
zero upper byte of KBDR is D10 (log 10). -/
def Obligations.KbsrPoll : Prop :=
  ∀ s : State,
    let t := s.kbsrSideEffect
    t = { s with mem := t.mem, kbd := t.kbd } ∧
    (∀ k, keyboardKey k = false → t.peekByte k = s.peekByte k) ∧
    (s.kbd = [] → t.peek 0xFE00#16 = 0x0000#16 ∧ t.peek 0xFE02#16 = s.peek 0xFE02#16 ∧ t.kbd = []) ∧
    (∀ b rest, s.kbd = b :: rest →
      t.peek 0xFE00#16 = s.peek 0xFE00#16 ||| 0x8000#16 ∧ t.peek 0xFE02#16 = b.setWidth 16 ∧ t.kbd = rest)

/-- The write port (20_memory.md R34): the Word is stored, at any address, and nothing else of the state changes: no
poll, no other byte of memory. -/
def Obligations.WritePort : Prop :=
  ∀ (s : State) (a v : Word),
    let t := s.memWrite a v
    t.peek a = v ∧ (∀ k, k ≠ highKey a → k ≠ lowKey a → t.peekByte k = s.peekByte k) ∧
    (∀ b, b ≠ a → t.peek b = s.peek b) ∧ t = { s with mem := t.mem }

/-- A store is seen by the next read, and a store to KBSR is transient (20_memory.md R31, R41; 70_reset_and_hazards.md
R216; the kept bits are decision D9, log 7). -/
def Obligations.ReadAfterWrite : Prop :=
  ∀ (s : State) (a v : Word),
    (a ≠ 0xFE00#16 → ((s.memWrite a v).memRead a).1 = v) ∧
    (s.kbd = [] → ((s.memWrite 0xFE00#16 v).memRead 0xFE00#16).1 = 0x0000#16) ∧
    (s.kbd ≠ [] → ((s.memWrite 0xFE00#16 v).memRead 0xFE00#16).1 = v ||| 0x8000#16)

/-- Self-modifying code (20_memory.md R44): the step after a store to the address at pc runs the Word stored. -/
def Obligations.StoreIsSeenByNextFetch : Prop :=
  ∀ (s : State) (v : Word) (i : Instr), s.run = .running → s.wait = .none → s.pc ≠ 0xFE00#16 →
    decode v = .ok i → step (s.memWrite s.pc v) = exec i ((s.memWrite s.pc v).deliver.setPc (s.pc + 1#16))

/-! ## Flags -/

/-- `setcc` (40_fetch_decode_dispatch.md R75): NEG iff bit 15, ZRO iff zero, else POS, from the register's current value;
it writes nothing but `cond`. -/
def Obligations.SetccRule : Prop :=
  ∀ (s : State) (i : Reg),
    (s.setcc i).cond = (if (s.reg i).getLsbD 15 then .neg else if s.reg i = 0x0000#16 then .zro else .pos) ∧
    ((s.setcc i).cond = .neg ↔ 0x8000 ≤ (s.reg i).toNat) ∧ ((s.setcc i).cond = .zro ↔ (s.reg i).toNat = 0) ∧
    ((s.setcc i).cond = .pos ↔ 1 ≤ (s.reg i).toNat ∧ (s.reg i).toNat ≤ 0x7FFF) ∧
    s.setcc i = { s with cond := (s.setcc i).cond }

/-- Who sets the flags (40_fetch_decode_dispatch.md R76): exactly the nine operations, each from its destination register
as it leaves it; a GETC or IN that holds does so when it completes; nothing else changes `cond`. -/
def Obligations.FlagWriters : Prop :=
  (∀ (i : Instr) (s t : State), s.wait = .none → exec i s = .next t →
    (flagDest i = none → t.cond = s.cond) ∧
    (∀ d, flagDest i = some d → t.wait = .none → t.cond = condOf (t.reg d)) ∧ (t.wait ≠ .none → t.cond = s.cond)) ∧
  (∀ (s t : State), s.wait ≠ .none → step s = .next t →
    (t.wait = .none → t.cond = condOf (t.reg 0)) ∧ (t.wait ≠ .none → t.cond = s.cond)) ∧
  ∀ s : State, s.kbsrSideEffect.cond = s.cond

/-- `cond` is read only by BR (10_state.md R15): every other instruction does the same whatever `cond` is, but for the
`cond` it leaves. -/
def Obligations.CondReadOnlyByBranch : Prop :=
  ∀ (i : Instr) (s t : State) (c : Cond), (∀ n z p off9, i ≠ .br n z p off9) → exec i s = .next t →
    ∃ c', exec i (s.setCond c) = .next (t.setCond c')

/-! ## Frames over all instructions -/

/-- The register file (10_state.md R10): a read returns the last value written to that register, all eight hold what was
written, none aliases another, and a write changes nothing else. -/
def Obligations.RegisterFile : Prop :=
  ∀ (s : State) (i : Reg) (v : Word),
    (∀ j : Reg, (s.setReg i v).reg j = if j = i then v else s.reg j) ∧
    s.setReg i v = { s with regs := (s.setReg i v).regs }

/-- Registers (10_state.md R10, R11): an instruction leaves every register unchanged but its destination register and,
for JSR, JSRR and every TRAP, R7. -/
def Obligations.RegisterFrame : Prop :=
  ∀ (i : Instr) (s t : State) (r : Reg), exec i s = .next t → flagDest i ≠ some r → (links i = true → r ≠ 7) →
    t.reg r = s.reg r

/-- Memory (20_memory.md R32, R34, R35): every byte outside the cell an instruction stores to is unchanged, but that a read
of 0xFE00 may change the keyboard cells; an instruction that reads no memory, or whose reads all miss 0xFE00, leaves the
keyboard cells unchanged too. That a string walk polls at 0xFE00 and wraps is decision D13 (log 22). -/
def Obligations.MemoryFrame : Prop :=
  ∀ (i : Instr) (s t : State), exec i s = .next t →
    (∀ k, keyboardKey k = false → (∀ a, storeAddr s i = some a → k ≠ highKey a ∧ k ≠ lowKey a) →
      t.peekByte k = s.peekByte k) ∧
    (readsMemory i = false ∨ missesKbsr s i →
      ∀ k, (∀ a, storeAddr s i = some a → k ≠ highKey a ∧ k ≠ lowKey a) → t.peekByte k = s.peekByte k)

/-- The program counter (10_state.md R13): only BR, JMP, JSR and JSRR write pc after the increment. -/
def Obligations.PcWriters : Prop :=
  (∀ (i : Instr) (s t : State), exec i s = .next t → transfers i = false → t.pc = s.pc) ∧
  ∀ (s t : State) (i : Instr), s.run = .running → s.wait = .none → decode (s.deliver.memRead s.pc).1 = .ok i →
    transfers i = false → step s = .next t → t.pc = s.pc + 1#16

/-- The run state (10_state.md R16, 46_trap.md R141): a step leaves Running only by a fetched HALT, and then to Halted. -/
def Obligations.RunLeavesRunningOnlyByHalt : Prop :=
  ∀ s t : State, step s = .next t → s.run = .running ∧
    (t.run = .running ∨ (t.run = .halted ∧ s.wait = .none ∧ decode (s.deliver.memRead s.pc).1 = .ok .trapHalt))

/-- The streams (50_interfaces.md R163, R164, R166): OUT and ERR only grow at their ends, the core only takes bytes from
the head of the keyboard queue, and only a TRAP with an undefined vector reports. The queue is decision D16; the field
`arrivals`, and that its next batch arrives at the start of the step, are the model's choice (log 5). -/
def Obligations.StreamFrame : Prop :=
  (∀ s t : State, step s = .next t →
    s.out <+: t.out ∧ s.err <+: t.err ∧ t.kbd <:+ s.deliver.kbd ∧ t.arrivals = s.deliver.arrivals) ∧
  ∀ (i : Instr) (s t : State), exec i s = .next t → (∀ v, i ≠ .trapUndefined v) → t.err = s.err

/-! ## ADD, AND, NOT -/

/-- ADD (41_alu.md R90, R91): the sum modulo 2^16, the flags of the result, and nothing else. -/
def Obligations.AddResult : Prop :=
  ∀ (s : State) (dr sr1 sr2 : Reg) (imm5 : BitVec 5),
    exec (.addReg dr sr1 sr2) s =
      .next ((s.setReg dr (s.reg sr1 + s.reg sr2)).setCond (condOf (s.reg sr1 + s.reg sr2))) ∧
    exec (.addImm dr sr1 imm5) s =
      .next ((s.setReg dr (s.reg sr1 + sext imm5)).setCond (condOf (s.reg sr1 + sext imm5)))

/-- AND (41_alu.md R92, R93): the bitwise AND, its immediate sign-extended, the flags of the result, and nothing else. -/
def Obligations.AndResult : Prop :=
  ∀ (s : State) (dr sr1 sr2 : Reg) (imm5 : BitVec 5),
    exec (.andReg dr sr1 sr2) s =
      .next ((s.setReg dr (s.reg sr1 &&& s.reg sr2)).setCond (condOf (s.reg sr1 &&& s.reg sr2))) ∧
    exec (.andImm dr sr1 imm5) s =
      .next ((s.setReg dr (s.reg sr1 &&& sext imm5)).setCond (condOf (s.reg sr1 &&& sext imm5)))

/-- NOT (41_alu.md R94): the complement, 0xFFFF minus the source, the flags of the result, and nothing else. -/
def Obligations.NotResult : Prop :=
  ∀ (s : State) (dr sr1 : Reg),
    exec (.not dr sr1) s = .next ((s.setReg dr (~~~ s.reg sr1)).setCond (condOf (~~~ s.reg sr1))) ∧
    (~~~ s.reg sr1).toNat = 0xFFFF - (s.reg sr1).toNat

/-- Laws of the ALU (41_alu.md R95): ADD and AND commute in register mode, and NOT then ADD of 1 leaves the negated
value, so that adding the source gives zero. -/
def Obligations.AluLaws : Prop :=
  ∀ (s : State) (dr a b : Reg),
    exec (.addReg dr a b) s = exec (.addReg dr b a) s ∧ exec (.andReg dr a b) s = exec (.andReg dr b a) s ∧
    ∃ t u, exec (.not dr a) s = .next t ∧ exec (.addImm dr dr 1#5) t = .next u ∧ u.reg dr + s.reg a = 0x0000#16

/-! ## BR, JMP, JSR, JSRR -/

/-- BR (42_control.md R100, R101): taken if a set bit matches `cond`, and then pc moves by the offset; else pc stays;
nothing else changes. With no bit set it is never taken, with all three it always is. -/
def Obligations.BranchResult : Prop :=
  ∀ (s : State) (n z p : Bool) (off9 : BitVec 9),
    ((n = true ∧ s.cond = .neg) ∨ (z = true ∧ s.cond = .zro) ∨ (p = true ∧ s.cond = .pos) →
      exec (.br n z p off9) s = .next (s.setPc (s.pc + sext off9))) ∧
    (¬((n = true ∧ s.cond = .neg) ∨ (z = true ∧ s.cond = .zro) ∨ (p = true ∧ s.cond = .pos)) →
      exec (.br n z p off9) s = .next s) ∧
    exec (.br false false false off9) s = .next s ∧
    exec (.br true true true off9) s = .next (s.setPc (s.pc + sext off9))

/-- JMP (42_control.md R102): pc takes the register's value; nothing else changes. -/
def Obligations.JumpResult : Prop :=
  ∀ (s : State) (baseR : Reg), exec (.jmp baseR) s = .next (s.setPc (s.reg baseR))

/-- JSR (42_control.md R103): R7 takes the incremented pc, pc moves by the offset; nothing else changes, no flag. -/
def Obligations.JsrResult : Prop :=
  ∀ (s : State) (off11 : BitVec 11),
    exec (.jsr off11) s = .next ((s.setReg 7 s.pc).setPc (s.pc + sext off11))

/-- JSRR (42_control.md R104): R7 takes the incremented pc first, then pc the base register's value, so JSRR R7 does not
jump; nothing else changes, no flag. -/
def Obligations.JsrrResult : Prop :=
  ∀ (s : State) (baseR : Reg),
    (baseR ≠ 7 → exec (.jsrr baseR) s = .next ((s.setReg 7 s.pc).setPc (s.reg baseR))) ∧
    exec (.jsrr 7) s = .next (s.setReg 7 s.pc)

/-! ## LD, LDI, LDR, LEA -/

/-- LD and LDR (43_load.md R110, R112): one read through the read port at the effective address, the Word into DR, the
flags from it. At an address other than 0xFE00 nothing else changes. -/
def Obligations.LoadResult : Prop :=
  ∀ (s : State) (dr baseR : Reg) (off9 : BitVec 9) (off6 : BitVec 6),
    let loaded := fun (m : Word × State) => (m.2.setReg dr m.1).setCond (condOf m.1)
    exec (.ld dr off9) s = .next (loaded (s.memRead (s.pc + sext off9))) ∧
    exec (.ldr dr baseR off6) s = .next (loaded (s.memRead (s.reg baseR + sext off6))) ∧
    (s.pc + sext off9 ≠ 0xFE00#16 →
      exec (.ld dr off9) s = .next (loaded (s.peek (s.pc + sext off9), s))) ∧
    (s.reg baseR + sext off6 ≠ 0xFE00#16 →
      exec (.ldr dr baseR off6) s = .next (loaded (s.peek (s.reg baseR + sext off6), s)))

/-- LDI (43_load.md R111): the pointer read, then the data read, each through the read port; the Word into DR, the flags
from it. -/
def Obligations.LoadIndirectResult : Prop :=
  ∀ (s : State) (dr : Reg) (off9 : BitVec 9),
    let p := s.memRead (s.pc + sext off9)
    let m := p.2.memRead p.1
    exec (.ldi dr off9) s = .next ((m.2.setReg dr m.1).setCond (condOf m.1))

/-- The LDI round trip (43_load.md R111): with pointer P written at A and payload X at P, an LDI whose pointer address is
A leaves X in DR. -/
def Obligations.LdiRoundTrip : Prop :=
  ∀ (s : State) (dr : Reg) (off9 : BitVec 9) (p x : Word),
    s.pc + sext off9 ≠ 0xFE00#16 → p ≠ 0xFE00#16 → p ≠ s.pc + sext off9 →
    ∃ t, exec (.ldi dr off9) ((s.memWrite (s.pc + sext off9) p).memWrite p x) = .next t ∧ t.reg dr = x ∧
      t.cond = condOf x

/-- Polling through LDI (43_load.md R111, 60_exceptions.md R192): with a pointer to KBSR, LDI leaves NEG exactly when a
byte was taken; the byte is then in KBDR, zero-extended (decision D10, log 10), and gone from the queue; with none
pending DR and KBSR are zero. -/
def Obligations.LdiPollsKeyboard : Prop :=
  ∀ (s : State) (dr : Reg) (off9 : BitVec 9), s.pc + sext off9 ≠ 0xFE00#16 →
    s.peek (s.pc + sext off9) = 0xFE00#16 →
    (s.kbd = [] → ∃ t, exec (.ldi dr off9) s = .next t ∧ t.reg dr = 0x0000#16 ∧ t.cond = .zro ∧
      t.peek 0xFE00#16 = 0x0000#16 ∧ t.kbd = []) ∧
    (∀ b rest, s.kbd = b :: rest → ∃ t, exec (.ldi dr off9) s = .next t ∧ t.cond = .neg ∧
      t.reg dr = t.peek 0xFE00#16 ∧ t.peek 0xFE02#16 = b.setWidth 16 ∧ t.kbd = rest)

/-- LEA (43_load.md R113): the address itself into DR, the flags from it, no memory access, nothing else. -/
def Obligations.LeaResult : Prop :=
  ∀ (s : State) (dr : Reg) (off9 : BitVec 9),
    exec (.lea dr off9) s = .next ((s.setReg dr (s.pc + sext off9)).setCond (condOf (s.pc + sext off9)))

/-! ## ST, STI, STR -/

/-- ST and STR (44_store.md R120, R122): the source register's Word at the effective address; every byte outside that
cell and everything else unchanged. -/
def Obligations.StoreResult : Prop :=
  ∀ (s : State) (sr baseR : Reg) (off9 : BitVec 9) (off6 : BitVec 6),
    (∃ t, exec (.st sr off9) s = .next t ∧ t.peek (s.pcRelative off9) = s.reg sr ∧ t = { s with mem := t.mem } ∧
      ∀ k, k ≠ highKey (s.pcRelative off9) → k ≠ lowKey (s.pcRelative off9) → t.peekByte k = s.peekByte k) ∧
    (∃ t, exec (.str sr baseR off6) s = .next t ∧ t.peek (s.basePlus baseR off6) = s.reg sr ∧
      t = { s with mem := t.mem } ∧
      ∀ k, k ≠ highKey (s.basePlus baseR off6) → k ≠ lowKey (s.basePlus baseR off6) → t.peekByte k = s.peekByte k) ∧
    s.pcRelative off9 = s.pc + sext off9 ∧ s.basePlus baseR off6 = s.reg baseR + sext off6

/-- STI (44_store.md R121): one read through the read port for the address, then the store there. Beyond the stored cell
only that read's own effect remains: none where the pointer cell is not 0xFE00. -/
def Obligations.StoreIndirectResult : Prop :=
  ∀ (s : State) (sr : Reg) (off9 : BitVec 9),
    let p := s.memRead (s.pc + sext off9)
    ∃ t, exec (.sti sr off9) s = .next t ∧ t.peek p.1 = s.reg sr ∧ t = { s with mem := t.mem, kbd := p.2.kbd } ∧
      (∀ k, k ≠ highKey p.1 → k ≠ lowKey p.1 → t.peekByte k = p.2.peekByte k) ∧
      (s.pc + sext off9 ≠ 0xFE00#16 → p = (s.peek (s.pc + sext off9), s))

/-- Common to the three stores (44_store.md R123): they cannot fail, change no flag, no register and not pc, and write
the whole Word the register holds. What else they leave unchanged is in StoreResult and StoreIndirectResult. -/
def Obligations.StoresKeepFlagsRegistersAndPc : Prop :=
  ∀ (i : Instr) (s : State) (sr baseR : Reg) (off9 : BitVec 9) (off6 : BitVec 6),
    i = .st sr off9 ∨ i = .sti sr off9 ∨ i = .str sr baseR off6 →
    ∃ t, exec i s = .next t ∧ t.cond = s.cond ∧ t.regs = s.regs ∧ t.pc = s.pc ∧
      ∀ a, storeAddr s i = some a → t.peek a = s.reg sr

/-! ## RTI, RES -/

/-- RTI and RES change nothing at all once pc is incremented (45_reserved.md R130, R131; the no-op reading is decision D7,
conflict C1, log 14). -/
def Obligations.ReservedAreNoOps : Prop :=
  ∀ s : State, exec .rti s = .next s ∧ exec .res s = .next s

/-! ## TRAP -/

/-- Trap entry (60_exceptions.md R187, 46_trap.md R135, R144): every TRAP that gives a next state has R7 equal to the
address of the following instruction, pc unchanged, and R1 to R6 unchanged. -/
def Obligations.TrapEntry : Prop :=
  ∀ (i : Instr) (s t : State),
    i = .trapGetc ∨ i = .trapOut ∨ i = .trapPuts ∨ i = .trapIn ∨ i = .trapPutsp ∨ i = .trapHalt ∨
      (∃ v, i = .trapUndefined v) →
    exec i s = .next t → t.reg 7 = s.pc ∧ t.pc = s.pc ∧ ∀ r : Reg, r ≠ 0 → r ≠ 7 → t.reg r = s.reg r

/-- GETC with a byte pending (46_trap.md R136): R7, R0 zero-extended (decision D10, log 10), flags ZRO or POS, one byte
taken, nothing emitted; KBSR, KBDR and all else unchanged. -/
def Obligations.GetcResult : Prop :=
  ∀ (s : State) (b : Byte) (rest : List Byte), s.kbd = b :: rest →
    exec .trapGetc s = .next
      { (s.setReg 7 s.pc).setReg 0 (b.setWidth 16) with
        cond := if b = 0x00#8 then .zro else .pos, kbd := rest, wait := .none }

/-- IN with a byte pending (46_trap.md R139): as GETC, with the prompt and then the echo on OUT. The prompt's bytes are
the OPEN parameter (decision D12, log 6), so this holds for every prompt. -/
def Obligations.InResult : Prop :=
  ∀ (s : State) (b : Byte) (rest : List Byte), s.kbd = b :: rest →
    exec .trapIn s = .next
      { (s.setReg 7 s.pc).setReg 0 (b.setWidth 16) with
        cond := if b = 0x00#8 then .zro else .pos, kbd := rest, wait := .none,
        out := s.out ++ Config.inPrompt.map .byte ++ [.byte b] }

/-- GETC and IN with no byte pending hold (46_trap.md R136, R139; 10_state.md R17): R7 is written, IN's prompt is out,
`wait` is set, and R0, the flags and all else are unchanged. -/
def Obligations.GetcAndInHold : Prop :=
  ∀ s : State, s.kbd = [] →
    exec .trapGetc s = .next { s.setReg 7 s.pc with wait := .getc } ∧
    exec .trapIn s = .next { s.setReg 7 s.pc with wait := .inp, out := s.out ++ Config.inPrompt.map .byte }

/-- A hold ends when a byte arrives (46_trap.md R136, R139; 50_interfaces.md R162): GETC stores it, IN echoes and stores
it, with no second prompt; the flags are set and R7 and pc stay. The hold as steps is decision D15 (log 13), the moment of
arrival log 5, and R0 zero-extended, so never NEG, decision D10 (log 10). -/
def Obligations.HeldReadCompletes : Prop :=
  ∀ (s : State) (b : Byte) (rest : List Byte), s.run = .running → s.deliver.kbd = b :: rest →
    (s.wait = .getc → step s = .next
      { s.deliver.setReg 0 (b.setWidth 16) with
        cond := if b = 0x00#8 then .zro else .pos, kbd := rest, wait := .none }) ∧
    (s.wait = .inp → step s = .next
      { s.deliver.setReg 0 (b.setWidth 16) with
        cond := if b = 0x00#8 then .zro else .pos, kbd := rest, wait := .none, out := s.out ++ [.byte b] })

/-- OUT (46_trap.md R137): R7, and the low byte of R0 on OUT; no flush marker (decision D14, log 20); nothing else. -/
def Obligations.OutResult : Prop :=
  ∀ s : State,
    exec .trapOut s =
      .next { s.setReg 7 s.pc with out := s.out ++ [.byte (BitVec.ofNat 8 ((s.reg 0).toNat % 256))] }

/-- PUTS of a string that does not touch 0xFE00 (46_trap.md R138): the low bytes of the non-zero Words from R0 up to the
first zero Word, addresses modulo 2^16 (decision D13, log 22); R7; nothing else. -/
def Obligations.PutsResult : Prop :=
  ∀ (s : State) (n : Nat), n < 65536 → (∀ k, k ≤ n → s.reg 0 + BitVec.ofNat 16 k ≠ 0xFE00#16) →
    (∀ k, k < n → s.peek (s.reg 0 + BitVec.ofNat 16 k) ≠ 0x0000#16) →
    s.peek (s.reg 0 + BitVec.ofNat 16 n) = 0x0000#16 →
    exec .trapPuts s = .next
      { s.setReg 7 s.pc with
        out := s.out ++ (List.range n).map fun k => .byte ((s.peek (s.reg 0 + BitVec.ofNat 16 k)).extractLsb' 0 8) }

/-- PUTSP of such a string (46_trap.md R140): each Word's low byte, then its high byte if that is not zero (the zero low
byte of a non-zero Word is emitted, decision D27, log 22). -/
def Obligations.PutspResult : Prop :=
  ∀ (s : State) (n : Nat), n < 65536 → (∀ k, k ≤ n → s.reg 0 + BitVec.ofNat 16 k ≠ 0xFE00#16) →
    (∀ k, k < n → s.peek (s.reg 0 + BitVec.ofNat 16 k) ≠ 0x0000#16) →
    s.peek (s.reg 0 + BitVec.ofNat 16 n) = 0x0000#16 →
    exec .trapPutsp s = .next
      { s.setReg 7 s.pc with
        out := s.out ++ ((List.range n).flatMap fun k =>
          let w := s.peek (s.reg 0 + BitVec.ofNat 16 k)
          if w.extractLsb' 8 8 = 0x00#8 then [w.extractLsb' 0 8]
          else [w.extractLsb' 0 8, w.extractLsb' 8 8]).map .byte }

/-- PUTS and PUTSP always end, in every state (46_trap.md R145): no byte arrives during a step, so the walk meets a zero
Word or an unready KBSR. What they leave unchanged is here too: R1 to R6 and R0, pc, flags, run, wait, ERR, and every
byte but those of the keyboard cells. It rests on the walk's polls and wrap (decision D13, log 22) and on no byte
arriving within a step (D16, log 16). -/
def Obligations.StringRoutinesAlwaysEnd : Prop :=
  ∀ (i : Instr) (s : State), i = .trapPuts ∨ i = .trapPutsp →
    ∃ t, exec i s = .next t ∧ t = { s.setReg 7 s.pc with mem := t.mem, kbd := t.kbd, out := t.out } ∧
      ∀ k, keyboardKey k = false → t.peekByte k = s.peekByte k

/-- PUTS and PUTSP whose walk reaches 0xFE00 (46_trap.md R145), at the word of index `m`. With no byte pending the poll
clears KBSR and the walk stops there, having emitted the words before it. With a byte pending the poll takes it, sets
bit 15 of KBSR and stores the byte in KBDR, and the walk goes on over the polled memory: if it ends before it meets
0xFE00 again, OUT gains the words before 0xFE00 as they were and the rest as polled; and in every case the routine ends
as one started at 0xFE01 on the polled state ends, so the clauses together cover any number of crossings. The polling
and wrapping walk is decision D13 (log 22), the kept bits of KBSR are D9 (log 7), the zero-extended byte is D10
(log 10), PUTSP's zero low byte is D27 (log 22), and no byte arrives within the step (D16, log 16). -/
def Obligations.StringRoutinesAtKbsr : Prop :=
  ∀ (i : Instr) (bytesOf : Word → List Byte) (s : State) (m : Nat),
    (i = .trapPuts ∧ bytesOf = fun w => [w.extractLsb' 0 8]) ∨
      (i = .trapPutsp ∧ bytesOf = fun w =>
        if w.extractLsb' 8 8 = 0x00#8 then [w.extractLsb' 0 8] else [w.extractLsb' 0 8, w.extractLsb' 8 8]) →
    let addr := fun k => s.reg 0 + BitVec.ofNat 16 k
    m < 65536 → addr m = 0xFE00#16 → (∀ k, k < m → s.peek (addr k) ≠ 0x0000#16) →
    (s.kbd = [] → exec i s = .next
      { (s.setReg 7 s.pc).poke 0xFE00#16 0x0000#16 with
        out := s.out ++ ((List.range m).flatMap fun k => bytesOf (s.peek (addr k))).map .byte }) ∧
    (∀ b rest, s.kbd = b :: rest →
      let polled :=
        { (s.poke 0xFE00#16 (s.peek 0xFE00#16 ||| 0x8000#16)).poke 0xFE02#16 (b.setWidth 16) with kbd := rest }
      let outTo := fun n => s.out ++ ((List.range n).flatMap fun k =>
        bytesOf (if k < m then s.peek (addr k) else polled.peek (addr k))).map OutItem.byte
      (∀ n, m < n → n < m + 65536 → (∀ k, m < k → k < n → polled.peek (addr k) ≠ 0x0000#16) →
        polled.peek (addr n) = 0x0000#16 → exec i s = .next { polled.setReg 7 s.pc with out := outTo n }) ∧
      ∀ t, exec i { polled.setReg 0 0xFE01#16 with out := outTo (m + 1) } = .next t →
        exec i s = .next (t.setReg 0 (s.reg 0)))

/-- HALT (46_trap.md R141): R7, a flush marker and no byte (decision D24, log 20), `run` Halted; nothing else. -/
def Obligations.HaltResult : Prop :=
  ∀ s : State, exec .trapHalt s = .next { s.setReg 7 s.pc with out := s.out ++ [.flush], run := .halted }

/-- TRAP with an undefined vector (46_trap.md R142, 60_exceptions.md R182; decision D8, conflict C2, log 15): R7, one
record on ERR, and the run goes on; nothing else. -/
def Obligations.UndefinedVectorResult : Prop :=
  ∀ (s : State) (v : BitVec 8),
    exec (.trapUndefined v) s = .next { s.setReg 7 s.pc with err := s.err ++ [.invalidTrapVector v] }

/-! ## Loader and boot -/

/-- The loader on a source that ends (70_reset_and_hazards.md R203, R204, R206): for every origin and every list of Words, big-endian, word k
is at origin + k as far as the top of the address space, with no wrap, and every other cell is zero; a trailing odd byte
is dropped (decision D18, log 17). -/
def Obligations.LoadStoresWords : Prop :=
  ∀ (ε : Type) (origin : Word) (ws : List Word) (odd : List Byte), odd.length ≤ 1 →
    let bytes := fun (w : Word) => [w.extractLsb' 8 8, w.extractLsb' 0 8]
    ∃ m, load (⟨bytes origin ++ ws.flatMap bytes ++ odd, .eof⟩ : ImageSource ε) = .ok m ∧ m.wf = true ∧
      ∀ a : Word, m.getWord a =
        if origin.toNat ≤ a.toNat then ws.getD (a.toNat - origin.toNat) 0x0000#16 else 0x0000#16

/-- Loader errors (70_reset_and_hazards.md R204, R205; 60_exceptions.md R180): fewer than two bytes are Truncated, or Io if
the source fails; from two bytes on the end of the stream is never an error, a lone last byte being dropped (decision
D18, log 17); an I/O error is Io, with the source's own error (log 23), if it comes before the address space is full,
and else is never met, the load being the one of a source that just ends (words beyond 0xFFFF are not read, D18). -/
def Obligations.LoadErrors : Prop :=
  ∀ (ε : Type) (e : ε),
    (∀ bs : List Byte, bs.length < 2 →
      load (⟨bs, .eof⟩ : ImageSource ε) = .error .truncated ∧ load ⟨bs, .ioError e⟩ = .error (.io e)) ∧
    ∀ (b0 b1 : Byte) (bs : List Byte), ∃ m,
      load (⟨b0 :: b1 :: bs, .eof⟩ : ImageSource ε) = .ok m ∧
      load ⟨b0 :: b1 :: bs, .ioError e⟩ =
        if bs.length / 2 < 65536 - (256 * b0.toNat + b1.toNat) then .error (.io e) else .ok m

/-- The boot (70_reset_and_hazards.md R202): a failed load starts no run; a successful one starts it in the reset state
with the loaded memory, pc at 0x3000 whatever the origin (decision D18, log 17). -/
def Obligations.BootSequence : Prop :=
  ∀ (ε : Type) gpr kbd arrivals (src : ImageSource ε),
    (∀ e, load src = .error e → boot gpr kbd arrivals src = .error e) ∧
    ∀ m, load src = .ok m → ∃ s, boot gpr kbd arrivals src = .ok s ∧ s.mem = m ∧ s.pc = 0x3000#16 ∧
      s.run = .running ∧ s.cond = .zro ∧ s.wait = .none ∧ s.regs = gpr ∧ s.kbd = kbd ∧ s.out = [] ∧ s.err = []
end

