-- ==== Sys2Proof/Laws/Memory.lean ====
section
/-! SUPPORT. Stored memory: a read after a write, and that every memory operation keeps the canonical form. -/

namespace Sys2Proof.Machine

/-! ## Bytes -/

@[simp] theorem Memory.getByte_eraseByte_same (m : Memory) (j : Nat) : (m.eraseByte j).getByte j = unlistedByte := by
  induction m with
  | nil => rfl
  | cons c rest ih =>
    simp only [Memory.eraseByte, List.filter_cons] at ih ⊢
    split
    · rename_i h
      have h' : j ≠ c.1 := fun he => by simp [he] at h
      simpa [Memory.getByte, h'] using ih
    · exact ih

theorem Memory.getByte_eraseByte_ne (m : Memory) {j k : Nat} (h : j ≠ k) : (m.eraseByte k).getByte j = m.getByte j := by
  induction m with
  | nil => rfl
  | cons c rest ih =>
    simp only [Memory.eraseByte, List.filter_cons] at ih ⊢
    split
    · simp [Memory.getByte, ih]
    · rename_i hc
      have h' : j ≠ c.1 := by
        have : c.1 = k := by simpa using hc
        rw [this]
        exact h
      simpa [Memory.getByte, h'] using ih

theorem Memory.getByte_insertByte_ne (m : Memory) {j k : Nat} (v : Byte) (h : j ≠ k) :
    (m.insertByte k v).getByte j = m.getByte j := by
  induction m with
  | nil => simp [Memory.insertByte, Memory.getByte, h]
  | cons c rest ih =>
    simp only [Memory.insertByte]
    split
    · simp [Memory.getByte, h]
    · simp [Memory.getByte, ih]

theorem Memory.getByte_insertByte_same {m : Memory} {k : Nat} (v : Byte) (h : ∀ c ∈ m, c.1 ≠ k) :
    (m.insertByte k v).getByte k = v := by
  induction m with
  | nil => simp [Memory.insertByte, Memory.getByte]
  | cons c rest ih =>
    simp only [Memory.insertByte]
    split
    · simp [Memory.getByte]
    · have hc : k ≠ c.1 := (h c List.mem_cons_self).symm
      simp [Memory.getByte, hc, ih fun d hd => h d (List.mem_cons_of_mem _ hd)]

theorem Memory.mem_eraseByte {m : Memory} {j : Nat} {c : Host.Cell} : c ∈ m.eraseByte j ↔ c ∈ m ∧ c.1 ≠ j := by
  simp [Memory.eraseByte]

/-- A byte store is read back. -/
@[simp] theorem Memory.getByte_setByte_same (m : Memory) (k : Nat) (v : Byte) : (m.setByte k v).getByte k = v := by
  unfold Memory.setByte
  split
  · rename_i h
    rw [Memory.getByte_eraseByte_same, h]
  · exact Memory.getByte_insertByte_same v fun c hc => (Memory.mem_eraseByte.mp hc).2

/-- A byte store leaves every other byte alone. -/
theorem Memory.getByte_setByte_ne (m : Memory) {j k : Nat} (v : Byte) (h : j ≠ k) :
    (m.setByte k v).getByte j = m.getByte j := by
  unfold Memory.setByte
  split
  · exact Memory.getByte_eraseByte_ne m h
  · rw [Memory.getByte_insertByte_ne _ v h, Memory.getByte_eraseByte_ne m h]

/-- Below its first possible key a canonical memory lists nothing. -/
theorem Memory.getByte_of_lt {m : Memory} {lo j : Nat} (h : m.wfFrom lo = true) (hj : j < lo) :
    m.getByte j = unlistedByte := by
  induction m generalizing lo with
  | nil => rfl
  | cons c rest ih =>
    obtain ⟨k, b⟩ := c
    simp only [Memory.wfFrom, Bool.and_eq_true, decide_eq_true_eq] at h
    have hne : j ≠ k := by omega
    simp only [Memory.getByte, if_neg hne]
    exact ih h.2 (by omega)

theorem Memory.wfFrom_mono {m : Memory} {lo lo' : Nat} (h : m.wfFrom lo = true) (hle : lo' ≤ lo) :
    m.wfFrom lo' = true := by
  cases m with
  | nil => rfl
  | cons c rest =>
    simp only [Memory.wfFrom, Bool.and_eq_true, decide_eq_true_eq] at h ⊢
    exact ⟨⟨⟨by omega, h.1.1.2⟩, h.1.2⟩, h.2⟩

theorem Memory.wfFrom_eraseByte {m : Memory} {lo : Nat} (k : Nat) (h : m.wfFrom lo = true) :
    (m.eraseByte k).wfFrom lo = true := by
  induction m generalizing lo with
  | nil => rfl
  | cons c rest ih =>
    simp only [Memory.wfFrom, Bool.and_eq_true, decide_eq_true_eq] at h
    have hr := ih h.2
    simp only [Memory.eraseByte, List.filter_cons] at hr ⊢
    split
    · simp only [Memory.wfFrom, Bool.and_eq_true, decide_eq_true_eq]
      exact ⟨h.1, hr⟩
    · exact Memory.wfFrom_mono hr (by omega)

theorem Memory.wfFrom_insertByte {m : Memory} {lo k : Nat} {v : Byte} (hv : v ≠ unlistedByte) (hlo : lo ≤ k)
    (hk : k < 2 * Config.memWords) (hm : ∀ c ∈ m, c.1 ≠ k) (h : m.wfFrom lo = true) :
    (m.insertByte k v).wfFrom lo = true := by
  induction m generalizing lo with
  | nil =>
    simp only [Memory.insertByte, Memory.wfFrom, Bool.and_eq_true, decide_eq_true_eq]
    exact ⟨⟨⟨hlo, hk⟩, hv⟩, trivial⟩
  | cons c rest ih =>
    have hc : c.1 ≠ k := hm c List.mem_cons_self
    simp only [Memory.wfFrom, Bool.and_eq_true, decide_eq_true_eq] at h
    obtain ⟨⟨⟨h1, h2⟩, h3⟩, h4⟩ := h
    simp only [Memory.insertByte]
    split
    · simp only [Memory.wfFrom, Bool.and_eq_true, decide_eq_true_eq]
      exact ⟨⟨⟨hlo, hk⟩, hv⟩, ⟨⟨by omega, h2⟩, h3⟩, h4⟩
    · simp only [Memory.wfFrom, Bool.and_eq_true, decide_eq_true_eq]
      exact ⟨⟨⟨h1, h2⟩, h3⟩, ih (by omega) (fun d hd => hm d (List.mem_cons_of_mem _ hd)) h4⟩

/-- A byte store inside the address space keeps the canonical form. -/
theorem Memory.wf_setByte {m : Memory} {k : Nat} (v : Byte) (hk : k < 2 * Config.memWords) (h : m.wf = true) :
    (m.setByte k v).wf = true := by
  unfold Memory.setByte
  split
  · exact Memory.wfFrom_eraseByte k h
  · rename_i hv
    exact Memory.wfFrom_insertByte hv (by omega) hk (fun c hc => (Memory.mem_eraseByte.mp hc).2)
      (Memory.wfFrom_eraseByte k h)

/-- Canonical memories that read alike are the same list. -/
theorem Memory.eq_of_getByte_eq_from {m m' : Memory} {lo : Nat} (h : m.wfFrom lo = true) (h' : m'.wfFrom lo = true)
    (hr : ∀ k, m.getByte k = m'.getByte k) : m = m' := by
  induction m generalizing m' lo with
  | nil =>
    cases m' with
    | nil => rfl
    | cons c rest =>
      obtain ⟨k, b⟩ := c
      simp only [Memory.wfFrom, Bool.and_eq_true, decide_eq_true_eq] at h'
      exact absurd (by simpa [Memory.getByte] using (hr k).symm) h'.1.2
  | cons c rest ih =>
    obtain ⟨k, b⟩ := c
    have h1 := h
    simp only [Memory.wfFrom, Bool.and_eq_true, decide_eq_true_eq] at h1
    cases m' with
    | nil => exact absurd (by simpa [Memory.getByte] using hr k) h1.1.2
    | cons c' rest' =>
      obtain ⟨k', b'⟩ := c'
      have h2 := h'
      simp only [Memory.wfFrom, Bool.and_eq_true, decide_eq_true_eq] at h2
      have hk : k = k' := by
        by_contra hne
        rcases Nat.lt_or_gt_of_ne hne with hlt | hgt
        · have := hr k
          rw [Memory.getByte, if_pos rfl, Memory.getByte, if_neg (by omega),
            Memory.getByte_of_lt h2.2 (by omega)] at this
          exact h1.1.2 this
        · have := hr k'
          rw [Memory.getByte, if_neg (by omega), Memory.getByte_of_lt h1.2 (by omega), Memory.getByte,
            if_pos rfl] at this
          exact h2.1.2 this.symm
      subst hk
      have hb : b = b' := by simpa [Memory.getByte] using hr k
      subst hb
      rw [ih h1.2 h2.2 fun j => ?_]
      by_cases hj : j = k
      · subst hj
        rw [Memory.getByte_of_lt h1.2 (by omega), Memory.getByte_of_lt h2.2 (by omega)]
      · simpa [Memory.getByte, hj] using hr j

theorem Memory.eq_of_getByte_eq {m m' : Memory} (h : m.wf = true) (h' : m'.wf = true)
    (hr : ∀ k, m.getByte k = m'.getByte k) : m = m' :=
  Memory.eq_of_getByte_eq_from h h' hr

/-! ## Words -/

theorem highKey_lt (a : Word) : highKey a < 2 * Config.memWords := by
  simp only [highKey, Config.memWords]; omega

theorem lowKey_lt (a : Word) : lowKey a < 2 * Config.memWords := by
  simp only [lowKey, Config.memWords]; omega

theorem key_ne_of_ne {a b : Word} (h : a ≠ b) :
    highKey a ≠ highKey b ∧ highKey a ≠ lowKey b ∧ lowKey a ≠ highKey b ∧ lowKey a ≠ lowKey b := by
  have : a.toNat ≠ b.toNat := fun he => h (BitVec.eq_of_toNat_eq he)
  simp only [highKey, lowKey]
  omega

theorem highKey_ne_lowKey (a : Word) : highKey a ≠ lowKey a := by simp [highKey, lowKey]

/-- A Word store leaves every byte outside its cell alone. -/
theorem Memory.getByte_setWord_ne (m : Memory) (a v : Word) {k : Nat} (h1 : k ≠ highKey a) (h2 : k ≠ lowKey a) :
    (m.setWord a v).getByte k = m.getByte k := by
  simp only [Memory.setWord, Memory.getByte_setByte_ne _ _ h2, Memory.getByte_setByte_ne _ _ h1]

/-- A Word store leaves every other cell alone. -/
theorem Memory.getWord_setWord_ne (m : Memory) {a b : Word} (v : Word) (h : b ≠ a) :
    (m.setWord a v).getWord b = m.getWord b := by
  obtain ⟨h1, h2, h3, h4⟩ := key_ne_of_ne h
  simp only [Memory.getWord, Memory.getByte_setWord_ne _ _ _ h1 h2, Memory.getByte_setWord_ne _ _ _ h3 h4]

theorem extract_append_extract (v : Word) : (v.extractLsb' 8 8 ++ v.extractLsb' 0 8 : Word) = v := by
  apply BitVec.eq_of_getLsbD_eq
  intro i hi
  rw [BitVec.getLsbD_append]
  split
  · simp [*]
  · simp only [BitVec.getLsbD_extractLsb']
    rw [decide_eq_true (by omega), Bool.true_and]
    congr 1
    omega

/-- A Word store is read back. -/
@[simp] theorem Memory.getWord_setWord_same (m : Memory) (a v : Word) : (m.setWord a v).getWord a = v := by
  simp only [Memory.getWord, Memory.setWord, Memory.getByte_setByte_same,
    Memory.getByte_setByte_ne _ _ (highKey_ne_lowKey a)]
  exact extract_append_extract v

/-- A Word store keeps the canonical form. -/
theorem Memory.wf_setWord {m : Memory} (a v : Word) (h : m.wf = true) : (m.setWord a v).wf = true :=
  Memory.wf_setByte _ (lowKey_lt a) (Memory.wf_setByte _ (highKey_lt a) h)

/-- Reset memory is canonical. -/
theorem State.resetWith_mem_wf (g : Vector Word 8) (kbd : List Byte) (arr : List (List Byte)) :
    (State.resetWith g kbd arr).mem.wf = true := rfl

end Sys2Proof.Machine
end

