-- ==== Sys2Proof/Laws/Loader.lean ====
section
/-! SUPPORT. What the image loader can do, said once: the memory it has stored when the stream or the address space ends
is the same for every ending of the source, and canonical. -/

namespace Sys2Proof.Machine

/-- The word loop from address `a`: one memory, which is the result if the address space fills first, and which the
source's ending decides about if the stream ends first. -/
theorem loadWords_effect (bs : List Byte) (a : Nat) {m : Memory} (h : m.wf = true) :
    ∃ m' : Memory, m'.wf = true ∧ ∀ {ε : Type} (ending : SourceEnd ε), loadWords ending bs a m =
      if bs.length / 2 < Config.memWords - a then endOfWords ending m' else .ok m' := by
  by_cases ha : a < Config.memWords
  · match bs with
    | [] => exact ⟨m, h, fun _ => by simp [loadWords, ha]⟩
    | [_] => exact ⟨m, h, fun _ => by simp [loadWords, ha]⟩
    | hi :: lo :: rest =>
      obtain ⟨m', hw, he⟩ := loadWords_effect rest (a + 1) (Memory.wf_setWord (BitVec.ofNat 16 a) (hi ++ lo) h)
      refine ⟨m', hw, fun ending => ?_⟩
      have hc : (hi :: lo :: rest).length / 2 < Config.memWords - a ↔ rest.length / 2 < Config.memWords - (a + 1) := by
        simp only [List.length_cons]
        omega
      simp only [loadWords, ha, if_true, he, hc]
  · refine ⟨m, h, fun ending => ?_⟩
    rw [if_neg (by omega)]
    match bs with
    | [] | [_] | _ :: _ :: _ => simp [loadWords, ha]

/-- A load that succeeds leaves a canonical memory. -/
theorem load_wf {ε : Type} {src : ImageSource ε} {m : Memory} (h : load src = .ok m) : m.wf = true := by
  unfold load at h
  split at h
  · rename_i b0 b1 rest _
    obtain ⟨m', hw, he⟩ := loadWords_effect rest (b0 ++ b1 : Word).toNat (m := []) rfl
    rw [he] at h
    unfold endOfWords at h
    split at h
    · split at h <;> cases h
      exact hw
    · cases h
      exact hw
  all_goals
    unfold endOfOrigin at h
    split at h <;> cases h

end Sys2Proof.Machine
end

