-- ==== Sys2Proof/Laws/State.lean ====
section
/-! SUPPORT. The small lemmas of every update of `State`: one per field, true by unfolding, so that no later proof unfolds
a record update; the same for the two reads `reg` and `peek`. -/

namespace Sys2Proof.Machine

/-! ### setReg -/

@[simp] theorem State.setReg_regs (s : State) (i : Reg) (v : Word) : (s.setReg i v).regs = s.regs.set i.val v := rfl
@[simp] theorem State.setReg_pc (s : State) (i : Reg) (v : Word) : (s.setReg i v).pc = s.pc := rfl
@[simp] theorem State.setReg_cond (s : State) (i : Reg) (v : Word) : (s.setReg i v).cond = s.cond := rfl
@[simp] theorem State.setReg_run (s : State) (i : Reg) (v : Word) : (s.setReg i v).run = s.run := rfl
@[simp] theorem State.setReg_wait (s : State) (i : Reg) (v : Word) : (s.setReg i v).wait = s.wait := rfl
@[simp] theorem State.setReg_mem (s : State) (i : Reg) (v : Word) : (s.setReg i v).mem = s.mem := rfl
@[simp] theorem State.setReg_kbd (s : State) (i : Reg) (v : Word) : (s.setReg i v).kbd = s.kbd := rfl
@[simp] theorem State.setReg_out (s : State) (i : Reg) (v : Word) : (s.setReg i v).out = s.out := rfl
@[simp] theorem State.setReg_err (s : State) (i : Reg) (v : Word) : (s.setReg i v).err = s.err := rfl
@[simp] theorem State.setReg_arrivals (s : State) (i : Reg) (v : Word) : (s.setReg i v).arrivals = s.arrivals := rfl
@[simp] theorem State.setReg_peek (s : State) (i : Reg) (v : Word) (j : Word) : (s.setReg i v).peek j = s.peek j := rfl
@[simp] theorem State.setReg_peekByte (s : State) (i : Reg) (v : Word) (k : Nat) : (s.setReg i v).peekByte k = s.peekByte k := rfl

/-! ### setPc -/

@[simp] theorem State.setPc_regs (s : State) (v : Word) : (s.setPc v).regs = s.regs := rfl
@[simp] theorem State.setPc_pc (s : State) (v : Word) : (s.setPc v).pc = v := rfl
@[simp] theorem State.setPc_cond (s : State) (v : Word) : (s.setPc v).cond = s.cond := rfl
@[simp] theorem State.setPc_run (s : State) (v : Word) : (s.setPc v).run = s.run := rfl
@[simp] theorem State.setPc_wait (s : State) (v : Word) : (s.setPc v).wait = s.wait := rfl
@[simp] theorem State.setPc_mem (s : State) (v : Word) : (s.setPc v).mem = s.mem := rfl
@[simp] theorem State.setPc_kbd (s : State) (v : Word) : (s.setPc v).kbd = s.kbd := rfl
@[simp] theorem State.setPc_out (s : State) (v : Word) : (s.setPc v).out = s.out := rfl
@[simp] theorem State.setPc_err (s : State) (v : Word) : (s.setPc v).err = s.err := rfl
@[simp] theorem State.setPc_arrivals (s : State) (v : Word) : (s.setPc v).arrivals = s.arrivals := rfl
@[simp] theorem State.setPc_reg (s : State) (v : Word) (j : Reg) : (s.setPc v).reg j = s.reg j := rfl
@[simp] theorem State.setPc_peek (s : State) (v : Word) (j : Word) : (s.setPc v).peek j = s.peek j := rfl
@[simp] theorem State.setPc_peekByte (s : State) (v : Word) (k : Nat) : (s.setPc v).peekByte k = s.peekByte k := rfl

/-! ### setCond -/

@[simp] theorem State.setCond_regs (s : State) (f : Cond) : (s.setCond f).regs = s.regs := rfl
@[simp] theorem State.setCond_pc (s : State) (f : Cond) : (s.setCond f).pc = s.pc := rfl
@[simp] theorem State.setCond_cond (s : State) (f : Cond) : (s.setCond f).cond = f := rfl
@[simp] theorem State.setCond_run (s : State) (f : Cond) : (s.setCond f).run = s.run := rfl
@[simp] theorem State.setCond_wait (s : State) (f : Cond) : (s.setCond f).wait = s.wait := rfl
@[simp] theorem State.setCond_mem (s : State) (f : Cond) : (s.setCond f).mem = s.mem := rfl
@[simp] theorem State.setCond_kbd (s : State) (f : Cond) : (s.setCond f).kbd = s.kbd := rfl
@[simp] theorem State.setCond_out (s : State) (f : Cond) : (s.setCond f).out = s.out := rfl
@[simp] theorem State.setCond_err (s : State) (f : Cond) : (s.setCond f).err = s.err := rfl
@[simp] theorem State.setCond_arrivals (s : State) (f : Cond) : (s.setCond f).arrivals = s.arrivals := rfl
@[simp] theorem State.setCond_reg (s : State) (f : Cond) (j : Reg) : (s.setCond f).reg j = s.reg j := rfl
@[simp] theorem State.setCond_peek (s : State) (f : Cond) (j : Word) : (s.setCond f).peek j = s.peek j := rfl
@[simp] theorem State.setCond_peekByte (s : State) (f : Cond) (k : Nat) : (s.setCond f).peekByte k = s.peekByte k := rfl

/-! ### setRun -/

@[simp] theorem State.setRun_regs (s : State) (r : RunState) : (s.setRun r).regs = s.regs := rfl
@[simp] theorem State.setRun_pc (s : State) (r : RunState) : (s.setRun r).pc = s.pc := rfl
@[simp] theorem State.setRun_cond (s : State) (r : RunState) : (s.setRun r).cond = s.cond := rfl
@[simp] theorem State.setRun_run (s : State) (r : RunState) : (s.setRun r).run = r := rfl
@[simp] theorem State.setRun_wait (s : State) (r : RunState) : (s.setRun r).wait = s.wait := rfl
@[simp] theorem State.setRun_mem (s : State) (r : RunState) : (s.setRun r).mem = s.mem := rfl
@[simp] theorem State.setRun_kbd (s : State) (r : RunState) : (s.setRun r).kbd = s.kbd := rfl
@[simp] theorem State.setRun_out (s : State) (r : RunState) : (s.setRun r).out = s.out := rfl
@[simp] theorem State.setRun_err (s : State) (r : RunState) : (s.setRun r).err = s.err := rfl
@[simp] theorem State.setRun_arrivals (s : State) (r : RunState) : (s.setRun r).arrivals = s.arrivals := rfl
@[simp] theorem State.setRun_reg (s : State) (r : RunState) (j : Reg) : (s.setRun r).reg j = s.reg j := rfl
@[simp] theorem State.setRun_peek (s : State) (r : RunState) (j : Word) : (s.setRun r).peek j = s.peek j := rfl
@[simp] theorem State.setRun_peekByte (s : State) (r : RunState) (k : Nat) : (s.setRun r).peekByte k = s.peekByte k := rfl

/-! ### setWait -/

@[simp] theorem State.setWait_regs (s : State) (w : WaitState) : (s.setWait w).regs = s.regs := rfl
@[simp] theorem State.setWait_pc (s : State) (w : WaitState) : (s.setWait w).pc = s.pc := rfl
@[simp] theorem State.setWait_cond (s : State) (w : WaitState) : (s.setWait w).cond = s.cond := rfl
@[simp] theorem State.setWait_run (s : State) (w : WaitState) : (s.setWait w).run = s.run := rfl
@[simp] theorem State.setWait_wait (s : State) (w : WaitState) : (s.setWait w).wait = w := rfl
@[simp] theorem State.setWait_mem (s : State) (w : WaitState) : (s.setWait w).mem = s.mem := rfl
@[simp] theorem State.setWait_kbd (s : State) (w : WaitState) : (s.setWait w).kbd = s.kbd := rfl
@[simp] theorem State.setWait_out (s : State) (w : WaitState) : (s.setWait w).out = s.out := rfl
@[simp] theorem State.setWait_err (s : State) (w : WaitState) : (s.setWait w).err = s.err := rfl
@[simp] theorem State.setWait_arrivals (s : State) (w : WaitState) : (s.setWait w).arrivals = s.arrivals := rfl
@[simp] theorem State.setWait_reg (s : State) (w : WaitState) (j : Reg) : (s.setWait w).reg j = s.reg j := rfl
@[simp] theorem State.setWait_peek (s : State) (w : WaitState) (j : Word) : (s.setWait w).peek j = s.peek j := rfl
@[simp] theorem State.setWait_peekByte (s : State) (w : WaitState) (k : Nat) : (s.setWait w).peekByte k = s.peekByte k := rfl

/-! ### poke -/

@[simp] theorem State.poke_regs (s : State) (a v : Word) : (s.poke a v).regs = s.regs := rfl
@[simp] theorem State.poke_pc (s : State) (a v : Word) : (s.poke a v).pc = s.pc := rfl
@[simp] theorem State.poke_cond (s : State) (a v : Word) : (s.poke a v).cond = s.cond := rfl
@[simp] theorem State.poke_run (s : State) (a v : Word) : (s.poke a v).run = s.run := rfl
@[simp] theorem State.poke_wait (s : State) (a v : Word) : (s.poke a v).wait = s.wait := rfl
@[simp] theorem State.poke_mem (s : State) (a v : Word) : (s.poke a v).mem = s.mem.setWord a v := rfl
@[simp] theorem State.poke_kbd (s : State) (a v : Word) : (s.poke a v).kbd = s.kbd := rfl
@[simp] theorem State.poke_out (s : State) (a v : Word) : (s.poke a v).out = s.out := rfl
@[simp] theorem State.poke_err (s : State) (a v : Word) : (s.poke a v).err = s.err := rfl
@[simp] theorem State.poke_arrivals (s : State) (a v : Word) : (s.poke a v).arrivals = s.arrivals := rfl
@[simp] theorem State.poke_reg (s : State) (a v : Word) (j : Reg) : (s.poke a v).reg j = s.reg j := rfl

/-! ### arrive -/

@[simp] theorem State.arrive_regs (s : State) (bs : List Byte) : (s.arrive bs).regs = s.regs := rfl
@[simp] theorem State.arrive_pc (s : State) (bs : List Byte) : (s.arrive bs).pc = s.pc := rfl
@[simp] theorem State.arrive_cond (s : State) (bs : List Byte) : (s.arrive bs).cond = s.cond := rfl
@[simp] theorem State.arrive_run (s : State) (bs : List Byte) : (s.arrive bs).run = s.run := rfl
@[simp] theorem State.arrive_wait (s : State) (bs : List Byte) : (s.arrive bs).wait = s.wait := rfl
@[simp] theorem State.arrive_mem (s : State) (bs : List Byte) : (s.arrive bs).mem = s.mem := rfl
@[simp] theorem State.arrive_kbd (s : State) (bs : List Byte) : (s.arrive bs).kbd = s.kbd ++ bs := rfl
@[simp] theorem State.arrive_out (s : State) (bs : List Byte) : (s.arrive bs).out = s.out := rfl
@[simp] theorem State.arrive_err (s : State) (bs : List Byte) : (s.arrive bs).err = s.err := rfl
@[simp] theorem State.arrive_arrivals (s : State) (bs : List Byte) : (s.arrive bs).arrivals = s.arrivals := rfl
@[simp] theorem State.arrive_reg (s : State) (bs : List Byte) (j : Reg) : (s.arrive bs).reg j = s.reg j := rfl
@[simp] theorem State.arrive_peek (s : State) (bs : List Byte) (j : Word) : (s.arrive bs).peek j = s.peek j := rfl
@[simp] theorem State.arrive_peekByte (s : State) (bs : List Byte) (k : Nat) : (s.arrive bs).peekByte k = s.peekByte k := rfl

/-! ### emit -/

@[simp] theorem State.emit_regs (s : State) (b : Byte) : (s.emit b).regs = s.regs := rfl
@[simp] theorem State.emit_pc (s : State) (b : Byte) : (s.emit b).pc = s.pc := rfl
@[simp] theorem State.emit_cond (s : State) (b : Byte) : (s.emit b).cond = s.cond := rfl
@[simp] theorem State.emit_run (s : State) (b : Byte) : (s.emit b).run = s.run := rfl
@[simp] theorem State.emit_wait (s : State) (b : Byte) : (s.emit b).wait = s.wait := rfl
@[simp] theorem State.emit_mem (s : State) (b : Byte) : (s.emit b).mem = s.mem := rfl
@[simp] theorem State.emit_kbd (s : State) (b : Byte) : (s.emit b).kbd = s.kbd := rfl
@[simp] theorem State.emit_out (s : State) (b : Byte) : (s.emit b).out = s.out ++ [.byte b] := rfl
@[simp] theorem State.emit_err (s : State) (b : Byte) : (s.emit b).err = s.err := rfl
@[simp] theorem State.emit_arrivals (s : State) (b : Byte) : (s.emit b).arrivals = s.arrivals := rfl
@[simp] theorem State.emit_reg (s : State) (b : Byte) (j : Reg) : (s.emit b).reg j = s.reg j := rfl
@[simp] theorem State.emit_peek (s : State) (b : Byte) (j : Word) : (s.emit b).peek j = s.peek j := rfl
@[simp] theorem State.emit_peekByte (s : State) (b : Byte) (k : Nat) : (s.emit b).peekByte k = s.peekByte k := rfl

/-! ### emitAll -/

@[simp] theorem State.emitAll_regs (s : State) (bs : List Byte) : (s.emitAll bs).regs = s.regs := rfl
@[simp] theorem State.emitAll_pc (s : State) (bs : List Byte) : (s.emitAll bs).pc = s.pc := rfl
@[simp] theorem State.emitAll_cond (s : State) (bs : List Byte) : (s.emitAll bs).cond = s.cond := rfl
@[simp] theorem State.emitAll_run (s : State) (bs : List Byte) : (s.emitAll bs).run = s.run := rfl
@[simp] theorem State.emitAll_wait (s : State) (bs : List Byte) : (s.emitAll bs).wait = s.wait := rfl
@[simp] theorem State.emitAll_mem (s : State) (bs : List Byte) : (s.emitAll bs).mem = s.mem := rfl
@[simp] theorem State.emitAll_kbd (s : State) (bs : List Byte) : (s.emitAll bs).kbd = s.kbd := rfl
@[simp] theorem State.emitAll_out (s : State) (bs : List Byte) : (s.emitAll bs).out = s.out ++ bs.map .byte := rfl
@[simp] theorem State.emitAll_err (s : State) (bs : List Byte) : (s.emitAll bs).err = s.err := rfl
@[simp] theorem State.emitAll_arrivals (s : State) (bs : List Byte) : (s.emitAll bs).arrivals = s.arrivals := rfl
@[simp] theorem State.emitAll_reg (s : State) (bs : List Byte) (j : Reg) : (s.emitAll bs).reg j = s.reg j := rfl
@[simp] theorem State.emitAll_peek (s : State) (bs : List Byte) (j : Word) : (s.emitAll bs).peek j = s.peek j := rfl
@[simp] theorem State.emitAll_peekByte (s : State) (bs : List Byte) (k : Nat) : (s.emitAll bs).peekByte k = s.peekByte k := rfl

/-! ### flush -/

@[simp] theorem State.flush_regs (s : State) : (s.flush).regs = s.regs := rfl
@[simp] theorem State.flush_pc (s : State) : (s.flush).pc = s.pc := rfl
@[simp] theorem State.flush_cond (s : State) : (s.flush).cond = s.cond := rfl
@[simp] theorem State.flush_run (s : State) : (s.flush).run = s.run := rfl
@[simp] theorem State.flush_wait (s : State) : (s.flush).wait = s.wait := rfl
@[simp] theorem State.flush_mem (s : State) : (s.flush).mem = s.mem := rfl
@[simp] theorem State.flush_kbd (s : State) : (s.flush).kbd = s.kbd := rfl
@[simp] theorem State.flush_out (s : State) : (s.flush).out = s.out ++ [.flush] := rfl
@[simp] theorem State.flush_err (s : State) : (s.flush).err = s.err := rfl
@[simp] theorem State.flush_arrivals (s : State) : (s.flush).arrivals = s.arrivals := rfl
@[simp] theorem State.flush_reg (s : State) (j : Reg) : (s.flush).reg j = s.reg j := rfl
@[simp] theorem State.flush_peek (s : State) (j : Word) : (s.flush).peek j = s.peek j := rfl
@[simp] theorem State.flush_peekByte (s : State) (k : Nat) : (s.flush).peekByte k = s.peekByte k := rfl

/-! ### trapEntry -/

@[simp] theorem State.trapEntry_regs (s : State) : (s.trapEntry).regs = s.regs.set 7 s.pc := rfl
@[simp] theorem State.trapEntry_pc (s : State) : (s.trapEntry).pc = s.pc := rfl
@[simp] theorem State.trapEntry_cond (s : State) : (s.trapEntry).cond = s.cond := rfl
@[simp] theorem State.trapEntry_run (s : State) : (s.trapEntry).run = s.run := rfl
@[simp] theorem State.trapEntry_wait (s : State) : (s.trapEntry).wait = s.wait := rfl
@[simp] theorem State.trapEntry_mem (s : State) : (s.trapEntry).mem = s.mem := rfl
@[simp] theorem State.trapEntry_kbd (s : State) : (s.trapEntry).kbd = s.kbd := rfl
@[simp] theorem State.trapEntry_out (s : State) : (s.trapEntry).out = s.out := rfl
@[simp] theorem State.trapEntry_err (s : State) : (s.trapEntry).err = s.err := rfl
@[simp] theorem State.trapEntry_arrivals (s : State) : (s.trapEntry).arrivals = s.arrivals := rfl
@[simp] theorem State.trapEntry_peek (s : State) (j : Word) : (s.trapEntry).peek j = s.peek j := rfl
@[simp] theorem State.trapEntry_peekByte (s : State) (k : Nat) : (s.trapEntry).peekByte k = s.peekByte k := rfl

/-! ### report -/

@[simp] theorem State.report_regs (s : State) (e : ErrRecord) : (s.report e).regs = s.regs := rfl
@[simp] theorem State.report_pc (s : State) (e : ErrRecord) : (s.report e).pc = s.pc := rfl
@[simp] theorem State.report_cond (s : State) (e : ErrRecord) : (s.report e).cond = s.cond := rfl
@[simp] theorem State.report_run (s : State) (e : ErrRecord) : (s.report e).run = s.run := rfl
@[simp] theorem State.report_wait (s : State) (e : ErrRecord) : (s.report e).wait = s.wait := rfl
@[simp] theorem State.report_mem (s : State) (e : ErrRecord) : (s.report e).mem = s.mem := rfl
@[simp] theorem State.report_kbd (s : State) (e : ErrRecord) : (s.report e).kbd = s.kbd := rfl
@[simp] theorem State.report_out (s : State) (e : ErrRecord) : (s.report e).out = s.out := rfl
@[simp] theorem State.report_err (s : State) (e : ErrRecord) : (s.report e).err = s.err ++ [e] := rfl
@[simp] theorem State.report_arrivals (s : State) (e : ErrRecord) : (s.report e).arrivals = s.arrivals := rfl
@[simp] theorem State.report_reg (s : State) (e : ErrRecord) (j : Reg) : (s.report e).reg j = s.reg j := rfl
@[simp] theorem State.report_peek (s : State) (e : ErrRecord) (j : Word) : (s.report e).peek j = s.peek j := rfl
@[simp] theorem State.report_peekByte (s : State) (e : ErrRecord) (k : Nat) : (s.report e).peekByte k = s.peekByte k := rfl

/-! ### Reading a register after a write -/

theorem State.reg_setReg (s : State) (i j : Reg) (v : Word) : (s.setReg i v).reg j = if i = j then v else s.reg j := by
  simp only [State.reg, State.setReg, Vector.getElem_set, Fin.ext_iff]

@[simp] theorem State.reg_setReg_same (s : State) (i : Reg) (v : Word) : (s.setReg i v).reg i = v := by
  simp [State.reg_setReg]

theorem State.reg_setReg_other (s : State) {i j : Reg} (v : Word) (h : i ≠ j) : (s.setReg i v).reg j = s.reg j := by
  simp [State.reg_setReg, h]

/-! ### Composite updates -/

theorem State.reg_trapEntry (s : State) (j : Reg) : s.trapEntry.reg j = if j = 7 then s.pc else s.reg j := by
  rw [State.trapEntry, State.reg_setReg]
  simp [eq_comm]

theorem State.trapEntry_eq (s : State) : s.trapEntry = s.setReg 7 s.pc := rfl

theorem State.memWrite_eq (s : State) (a v : Word) : s.memWrite a v = s.poke a v := rfl

theorem State.writeResult_eq (s : State) (dr : Reg) (v : Word) :
    s.writeResult dr v = (s.setReg dr v).setCond (condOf v) := by
  simp [State.writeResult, State.setcc]

end Sys2Proof.Machine
end

