-- ==== Sys2Proof/Laws/Ops.lean ====
section
/-! SUPPORT. What each shared operation can do, said once: the memory ports, the keyboard reads and the string walk. -/

namespace Sys2Proof.Machine

/-! ## Stored words of a state -/

@[simp] theorem State.peek_poke_same (s : State) (a v : Word) : (s.poke a v).peek a = v :=
  Memory.getWord_setWord_same s.mem a v

theorem State.peek_poke_ne (s : State) {a b : Word} (v : Word) (h : b ≠ a) : (s.poke a v).peek b = s.peek b :=
  Memory.getWord_setWord_ne s.mem v h

theorem State.peekByte_poke_ne (s : State) (a v : Word) {k : Nat} (h1 : k ≠ highKey a) (h2 : k ≠ lowKey a) :
    (s.poke a v).peekByte k = s.peekByte k :=
  Memory.getByte_setWord_ne s.mem a v h1 h2

/-- A store keeps the canonical form. -/
theorem State.wf_poke {s : State} (a v : Word) (h : s.mem.wf = true) : (s.poke a v).mem.wf = true := by
  rw [State.poke_mem]
  exact Memory.wf_setWord a v h

theorem keyboardKey_false {k : Nat} (h : keyboardKey k = false) :
    (k ≠ highKey Config.kbsr ∧ k ≠ lowKey Config.kbsr) ∧ k ≠ highKey Config.kbdr ∧ k ≠ lowKey Config.kbdr := by
  simp only [keyboardKey, Bool.or_eq_false_iff, beq_eq_false_iff_ne, ne_eq] at h
  exact ⟨⟨h.1.1.1, h.1.1.2⟩, h.1.2, h.2⟩

/-! ## The read port -/

/-- What a read through the port may do to a state: only memory and the keyboard queue can change, bytes are only taken
from the queue's head, only the keyboard cells can change, and the canonical form is kept. -/
structure ReadEffect (s t : State) : Prop where
  rest : t = { s with mem := t.mem, kbd := t.kbd }
  wf : s.mem.wf = true → t.mem.wf = true
  kbd : t.kbd <:+ s.kbd
  bytes : ∀ k, keyboardKey k = false → t.peekByte k = s.peekByte k

theorem ReadEffect.refl (s : State) : ReadEffect s s := ⟨rfl, id, List.suffix_refl _, fun _ _ => rfl⟩

theorem ReadEffect.trans {s t u : State} (h1 : ReadEffect s t) (h2 : ReadEffect t u) : ReadEffect s u where
  rest := by rw [h2.rest, h1.rest]
  wf h := h2.wf (h1.wf h)
  kbd := h2.kbd.trans h1.kbd
  bytes k hk := (h2.bytes k hk).trans (h1.bytes k hk)

theorem State.kbsrSideEffect_nil {s : State} (h : s.kbd = []) :
    s.kbsrSideEffect = s.poke Config.kbsr 0x0000#16 := by
  simp [State.kbsrSideEffect, State.pollReady, h]

theorem State.kbsrSideEffect_cons {s : State} {b : Byte} {rest : List Byte} (h : s.kbd = b :: rest) :
    s.kbsrSideEffect =
      { (s.poke Config.kbsr (kbsrReadyWord (s.peek Config.kbsr))).poke Config.kbdr (zext16 b) with kbd := rest } := by
  simp [State.kbsrSideEffect, State.pollReady, State.readByte, h]
  rfl

theorem State.kbsrSideEffect_effect (s : State) : ReadEffect s s.kbsrSideEffect := by
  rcases hk : s.kbd with _ | ⟨b, rest⟩
  · rw [State.kbsrSideEffect_nil hk]
    refine ⟨rfl, fun h => State.wf_poke _ _ h, by simp, fun k h => ?_⟩
    obtain ⟨⟨h1, h2⟩, -⟩ := keyboardKey_false h
    exact State.peekByte_poke_ne s _ _ h1 h2
  · rw [State.kbsrSideEffect_cons hk]
    refine ⟨rfl, fun h => State.wf_poke _ _ (State.wf_poke _ _ h), ?_, fun k h => ?_⟩
    · rw [hk]
      exact List.suffix_cons b rest
    · obtain ⟨⟨h1, h2⟩, h3, h4⟩ := keyboardKey_false h
      exact (State.peekByte_poke_ne _ _ _ h3 h4).trans (State.peekByte_poke_ne s _ _ h1 h2)

theorem State.memRead_of_ne (s : State) {a : Word} (h : a ≠ Config.kbsr) : s.memRead a = (s.peek a, s) := by
  simp [State.memRead, h]

theorem State.memRead_kbsr (s : State) :
    s.memRead Config.kbsr = (s.kbsrSideEffect.peek Config.kbsr, s.kbsrSideEffect) := by
  simp [State.memRead]

theorem State.memRead_effect (s : State) (a : Word) : ReadEffect s (s.memRead a).2 := by
  by_cases h : a = Config.kbsr
  · rw [h, State.memRead_kbsr]
    exact State.kbsrSideEffect_effect s
  · rw [State.memRead_of_ne s h]
    exact ReadEffect.refl s

/-- The word a read returns is the word stored after it. -/
theorem State.memRead_fst (s : State) (a : Word) : (s.memRead a).1 = (s.memRead a).2.peek a := by
  unfold State.memRead
  split <;> rfl

section readFields

variable (s : State) (a : Word)

@[simp] theorem State.memRead_regs : (s.memRead a).2.regs = s.regs := by rw [(s.memRead_effect a).rest]
@[simp] theorem State.memRead_pc : (s.memRead a).2.pc = s.pc := by rw [(s.memRead_effect a).rest]
@[simp] theorem State.memRead_cond : (s.memRead a).2.cond = s.cond := by rw [(s.memRead_effect a).rest]
@[simp] theorem State.memRead_run : (s.memRead a).2.run = s.run := by rw [(s.memRead_effect a).rest]
@[simp] theorem State.memRead_wait : (s.memRead a).2.wait = s.wait := by rw [(s.memRead_effect a).rest]
@[simp] theorem State.memRead_out : (s.memRead a).2.out = s.out := by rw [(s.memRead_effect a).rest]
@[simp] theorem State.memRead_err : (s.memRead a).2.err = s.err := by rw [(s.memRead_effect a).rest]
@[simp] theorem State.memRead_arrivals : (s.memRead a).2.arrivals = s.arrivals := by
  rw [(s.memRead_effect a).rest]
@[simp] theorem State.memRead_reg (i : Reg) : (s.memRead a).2.reg i = s.reg i := by simp [State.reg]

end readFields

/-- The shared tail of the loads. -/
theorem State.loadFrom_eq (s : State) (dr : Reg) (ea : Word) :
    s.loadFrom dr ea = ((s.memRead ea).2.setReg dr (s.memRead ea).1).setCond (condOf (s.memRead ea).1) :=
  State.writeResult_eq _ dr _

theorem State.indirect_effect (s : State) (off9 : BitVec 9) : ReadEffect s (s.indirect off9).2 :=
  s.memRead_effect _

/-! ## Delivery of arriving bytes -/

/-- A delivery changes the queue and the schedule and nothing else. -/
theorem State.deliver_rest (s : State) :
    s.deliver = { s with kbd := s.deliver.kbd, arrivals := s.deliver.arrivals } := by
  unfold State.deliver
  split <;> rfl

theorem State.deliver_kbd_prefix (s : State) : s.kbd <+: s.deliver.kbd := by
  unfold State.deliver
  split
  · exact List.prefix_refl _
  · exact List.prefix_append _ _

section deliverFields

variable (s : State)

@[simp] theorem State.deliver_regs : s.deliver.regs = s.regs := by rw [State.deliver_rest]
@[simp] theorem State.deliver_pc : s.deliver.pc = s.pc := by rw [State.deliver_rest]
@[simp] theorem State.deliver_cond : s.deliver.cond = s.cond := by rw [State.deliver_rest]
@[simp] theorem State.deliver_run : s.deliver.run = s.run := by rw [State.deliver_rest]
@[simp] theorem State.deliver_wait : s.deliver.wait = s.wait := by rw [State.deliver_rest]
@[simp] theorem State.deliver_mem : s.deliver.mem = s.mem := by rw [State.deliver_rest]
@[simp] theorem State.deliver_out : s.deliver.out = s.out := by rw [State.deliver_rest]
@[simp] theorem State.deliver_err : s.deliver.err = s.err := by rw [State.deliver_rest]
@[simp] theorem State.deliver_reg (i : Reg) : s.deliver.reg i = s.reg i := by simp [State.reg]

end deliverFields

/-! ## Blocking reads -/

/-- A keyboard byte in R0 is never negative. -/
theorem condOf_zext16 (b : Byte) : condOf (zext16 b) = if b = 0x00#8 then .zro else .pos := by
  revert b
  decide

theorem State.finishRead_nil {s : State} (echo : State → Byte → State) (h : s.kbd = []) : s.finishRead echo = s := by
  simp [State.finishRead, State.readByte, h]

/-- A held GETC that finds a byte (46_trap.md R136). -/
theorem State.finishGetc_cons {s : State} {b : Byte} {rest : List Byte} (h : s.kbd = b :: rest) :
    s.finishGetc = ({ s with kbd := rest, wait := .none }).writeResult 0 (zext16 b) := by
  simp [State.finishGetc, State.finishRead, State.readByte, h, State.setWait]

/-- A held IN that finds a byte (46_trap.md R139). -/
theorem State.finishIn_cons {s : State} {b : Byte} {rest : List Byte} (h : s.kbd = b :: rest) :
    s.finishIn = (({ s with kbd := rest, wait := .none }).emit b).writeResult 0 (zext16 b) := by
  simp [State.finishIn, State.finishRead, State.readByte, h, State.setWait]

/-! ## The string walk -/

/-- What a string walk may do to a state: the effect of its reads, and bytes appended to OUT. -/
structure WalkEffect (s t : State) : Prop where
  rest : t = { s with mem := t.mem, kbd := t.kbd, out := t.out }
  wf : s.mem.wf = true → t.mem.wf = true
  kbd : t.kbd <:+ s.kbd
  bytes : ∀ k, keyboardKey k = false → t.peekByte k = s.peekByte k
  out : ∃ bs : List Byte, t.out = s.out ++ bs.map .byte

theorem ReadEffect.toWalk {s t : State} (h : ReadEffect s t) : WalkEffect s t where
  rest := by rw [h.rest]
  wf := h.wf
  kbd := h.kbd
  bytes := h.bytes
  out := ⟨[], by rw [h.rest]; simp⟩

theorem WalkEffect.trans {s t u : State} (h1 : WalkEffect s t) (h2 : WalkEffect t u) : WalkEffect s u where
  rest := by rw [h2.rest, h1.rest]
  wf h := h2.wf (h1.wf h)
  kbd := h2.kbd.trans h1.kbd
  bytes k hk := (h2.bytes k hk).trans (h1.bytes k hk)
  out := by
    obtain ⟨bs, hb⟩ := h1.out
    obtain ⟨cs, hc⟩ := h2.out
    exact ⟨bs ++ cs, by simp [hb, hc]⟩

theorem State.emitAll_effect (s : State) (bs : List Byte) : WalkEffect s (s.emitAll bs) :=
  ⟨rfl, id, List.suffix_refl _, fun _ _ => rfl, bs, rfl⟩

/-- Every finished walk. -/
theorem State.walk_effect {bytesOf : Word → List Byte} {fuel : Nat} {a : Word} {s t : State}
    (h : State.walk bytesOf fuel a s = some t) : WalkEffect s t := by
  induction fuel generalizing a s with
  | zero => simp [State.walk] at h
  | succ n ih =>
    rw [State.walk] at h
    split at h
    · cases h
      exact (s.memRead_effect a).toWalk
    · exact ((s.memRead_effect a).toWalk.trans (State.emitAll_effect _ _)).trans (ih h)

@[simp] theorem State.peek_emitAll (s : State) (bs : List Byte) (a : Word) : (s.emitAll bs).peek a = s.peek a := rfl

@[simp] theorem State.emitAll_nil (s : State) : s.emitAll [] = s := by simp [State.emitAll]

@[simp] theorem State.emitAll_emitAll (s : State) (bs cs : List Byte) :
    (s.emitAll bs).emitAll cs = s.emitAll (bs ++ cs) := by
  simp [State.emitAll]

/-- The walk at the zero Word that ends a string. -/
theorem State.walk_zero (bytesOf : Word → List Byte) (fuel : Nat) {a : Word} {s : State} (ha : a ≠ Config.kbsr)
    (h : s.peek a = 0x0000#16) : State.walk bytesOf (fuel + 1) a s = some s := by
  simp [State.walk, State.memRead_of_ne s ha, h]

/-- The walk over `n` non-zero Words that misses 0xFE00: their bytes are emitted and nothing else has changed. -/
theorem State.walk_words (bytesOf : Word → List Byte) (fuel n : Nat) {a : Word} {s : State}
    (hk : ∀ k, k < n → a + BitVec.ofNat 16 k ≠ Config.kbsr)
    (hz : ∀ k, k < n → s.peek (a + BitVec.ofNat 16 k) ≠ 0x0000#16) :
    State.walk bytesOf (fuel + n) a s = State.walk bytesOf fuel (a + BitVec.ofNat 16 n)
      (s.emitAll ((List.range n).flatMap fun k => bytesOf (s.peek (a + BitVec.ofNat 16 k)))) := by
  induction n generalizing fuel with
  | zero => simp
  | succ n ih =>
    have e : a + BitVec.ofNat 16 n + 1#16 = a + BitVec.ofNat 16 (n + 1) := by
      rw [BitVec.ofNat_add, ← BitVec.add_assoc]
    rw [show fuel + (n + 1) = fuel + 1 + n by omega,
      ih (fuel + 1) (fun k h => hk k (by omega)) (fun k h => hz k (by omega)), State.walk,
      State.memRead_of_ne _ (hk n (by omega))]
    simp [hz n (by omega), e, List.range_succ]

/-- The walk at 0xFE00 with no byte pending: it ends there, KBSR cleared. -/
theorem State.walk_kbsr_nil (bytesOf : Word → List Byte) (fuel : Nat) {s : State} (h : s.kbd = []) :
    State.walk bytesOf (fuel + 1) Config.kbsr s = some (s.poke Config.kbsr 0x0000#16) := by
  rw [State.walk, State.memRead_kbsr, State.kbsrSideEffect_nil h, if_pos (State.peek_poke_same _ _ _)]

/-- A ready word of KBSR is not zero. -/
theorem kbsrReadyWord_ne_zero (v : Word) : kbsrReadyWord v ≠ 0x0000#16 := by
  intro h
  have := congrArg (fun w : Word => w.getLsbD 15) h
  simp [kbsrReadyWord, Config.readyWord, Config.kbsrReadyMode] at this

/-- The walk at 0xFE00 with a byte pending: the poll takes it, the ready word is emitted, and the walk goes on. -/
theorem State.walk_kbsr_cons (bytesOf : Word → List Byte) (fuel : Nat) {s : State} {b : Byte} {rest : List Byte}
    (h : s.kbd = b :: rest) :
    State.walk bytesOf (fuel + 1) Config.kbsr s = State.walk bytesOf fuel (Config.kbsr + 1)
      (s.kbsrSideEffect.emitAll (bytesOf (kbsrReadyWord (s.peek Config.kbsr)))) := by
  have he : s.kbsrSideEffect.peek Config.kbsr = kbsrReadyWord (s.peek Config.kbsr) := by
    rw [State.kbsrSideEffect_cons h]
    exact (State.peek_poke_ne _ _ (by decide)).trans (State.peek_poke_same _ _ _)
  rw [State.walk, State.memRead_kbsr, he, if_neg (kbsrReadyWord_ne_zero _)]

/-- A finished walk finishes alike with more fuel. -/
theorem State.walk_mono {bytesOf : Word → List Byte} {fuel fuel' : Nat} {a : Word} {s t : State}
    (h : State.walk bytesOf fuel a s = some t) (hle : fuel ≤ fuel') : State.walk bytesOf fuel' a s = some t := by
  induction fuel generalizing fuel' a s with
  | zero => simp [State.walk] at h
  | succ n ih =>
    obtain ⟨m, rfl⟩ : ∃ m, fuel' = m + 1 := ⟨fuel' - 1, by omega⟩
    rw [State.walk] at h ⊢
    split at h
    · rwa [if_pos ‹_›]
    · rw [if_neg ‹_›]
      exact ih h (by omega)

/-- PUTS and PUTSP answer a next state only through a finished walk. -/
theorem State.putString_next {s t : State} {bytesOf : Word → List Byte}
    (h : s.putString bytesOf = .next t) : State.walk bytesOf s.walkFuel (s.reg 0) s = some t := by
  unfold State.putString at h
  split at h
  · cases h
    assumption
  · cases h

end Sys2Proof.Machine
end

