-- ==== Sys2Proof/Laws/PerInstr.lean ====
section
/-! SUPPORT. Per-instruction families of statements. `TableRow`: the word `encode` gives an instruction has, on the bits of
its row's mask in spec/opcode_table.json, the row's match; and the row fixes no bit that the decoder ignores
(spec/30_encoding.md R56, R57). -/

namespace Sys2Proof.Laws.TableRow

/-- The `mask` of the instruction's row in spec/opcode_table.json. -/
def mask : Instr → Word
  | .br _ _ _ _ | .ld _ _ | .st _ _ | .ldr _ _ _ | .str _ _ _ | .rti | .not _ _ | .ldi _ _ | .sti _ _ | .jmp _
  | .res | .lea _ _ | .trapUndefined _ => 0xF000#16
  | .addReg _ _ _ | .addImm _ _ _ | .andReg _ _ _ | .andImm _ _ _ => 0xF020#16
  | .jsr _ | .jsrr _ => 0xF800#16
  | .trapGetc | .trapOut | .trapPuts | .trapIn | .trapPutsp | .trapHalt => 0xF0FF#16

/-- The `match` of the instruction's row in spec/opcode_table.json. -/
def value : Instr → Word
  | .br _ _ _ _ => 0x0000#16
  | .addReg _ _ _ => 0x1000#16
  | .addImm _ _ _ => 0x1020#16
  | .ld _ _ => 0x2000#16
  | .st _ _ => 0x3000#16
  | .jsr _ => 0x4800#16
  | .jsrr _ => 0x4000#16
  | .andReg _ _ _ => 0x5000#16
  | .andImm _ _ _ => 0x5020#16
  | .ldr _ _ _ => 0x6000#16
  | .str _ _ _ => 0x7000#16
  | .rti => 0x8000#16
  | .not _ _ => 0x9000#16
  | .ldi _ _ => 0xA000#16
  | .sti _ _ => 0xB000#16
  | .jmp _ => 0xC000#16
  | .res => 0xD000#16
  | .lea _ _ => 0xE000#16
  | .trapGetc => 0xF020#16
  | .trapOut => 0xF021#16
  | .trapPuts => 0xF022#16
  | .trapIn => 0xF023#16
  | .trapPutsp => 0xF024#16
  | .trapHalt => 0xF025#16
  | .trapUndefined _ => 0xF000#16

/-- The instruction's word lies in its row of the opcode table, and the row fixes only bits the decoder reads. -/
def Statement (i : Instr) : Prop := encode i &&& mask i = value i ∧ mask i &&& usedBits i = mask i

/-- Two words are equal when their sixteen bits are. -/
theorem word_ext {v w : Word} (h : ∀ i : Fin 16, v.getLsbD i.val = w.getLsbD i.val) : v = w :=
  BitVec.eq_of_getLsbD_eq fun i hi => h ⟨i, hi⟩

theorem br (n z p : Bool) (off9 : BitVec 9) : Statement (.br n z p off9) := by
  refine ⟨word_ext fun i => ?_, by simp only [mask, usedBits]; decide⟩
  fin_cases i <;> simp [encode, mask, value, place]

theorem addReg (dr sr1 sr2 : Reg) : Statement (.addReg dr sr1 sr2) := by
  refine ⟨word_ext fun i => ?_, by simp only [mask, usedBits]; decide⟩
  fin_cases i <;> simp [encode, mask, value, place]

theorem addImm (dr sr1 : Reg) (imm5 : BitVec 5) : Statement (.addImm dr sr1 imm5) := by
  refine ⟨word_ext fun i => ?_, by simp only [mask, usedBits]; decide⟩
  fin_cases i <;> simp [encode, mask, value, place]

theorem ld (dr : Reg) (off9 : BitVec 9) : Statement (.ld dr off9) := by
  refine ⟨word_ext fun i => ?_, by simp only [mask, usedBits]; decide⟩
  fin_cases i <;> simp [encode, mask, value, place]

theorem st (sr : Reg) (off9 : BitVec 9) : Statement (.st sr off9) := by
  refine ⟨word_ext fun i => ?_, by simp only [mask, usedBits]; decide⟩
  fin_cases i <;> simp [encode, mask, value, place]

theorem jsr (off11 : BitVec 11) : Statement (.jsr off11) := by
  refine ⟨word_ext fun i => ?_, by simp only [mask, usedBits]; decide⟩
  fin_cases i <;> simp [encode, mask, value, place]

theorem jsrr (baseR : Reg) : Statement (.jsrr baseR) := by
  refine ⟨word_ext fun i => ?_, by simp only [mask, usedBits]; decide⟩
  fin_cases i <;> simp [encode, mask, value, place]

theorem andReg (dr sr1 sr2 : Reg) : Statement (.andReg dr sr1 sr2) := by
  refine ⟨word_ext fun i => ?_, by simp only [mask, usedBits]; decide⟩
  fin_cases i <;> simp [encode, mask, value, place]

theorem andImm (dr sr1 : Reg) (imm5 : BitVec 5) : Statement (.andImm dr sr1 imm5) := by
  refine ⟨word_ext fun i => ?_, by simp only [mask, usedBits]; decide⟩
  fin_cases i <;> simp [encode, mask, value, place]

theorem ldr (dr baseR : Reg) (off6 : BitVec 6) : Statement (.ldr dr baseR off6) := by
  refine ⟨word_ext fun i => ?_, by simp only [mask, usedBits]; decide⟩
  fin_cases i <;> simp [encode, mask, value, place]

theorem str (sr baseR : Reg) (off6 : BitVec 6) : Statement (.str sr baseR off6) := by
  refine ⟨word_ext fun i => ?_, by simp only [mask, usedBits]; decide⟩
  fin_cases i <;> simp [encode, mask, value, place]

theorem rti : Statement .rti := by unfold Statement; decide

theorem not (dr sr1 : Reg) : Statement (.not dr sr1) := by
  refine ⟨word_ext fun i => ?_, by simp only [mask, usedBits]; decide⟩
  fin_cases i <;> simp [encode, mask, value, place]

theorem ldi (dr : Reg) (off9 : BitVec 9) : Statement (.ldi dr off9) := by
  refine ⟨word_ext fun i => ?_, by simp only [mask, usedBits]; decide⟩
  fin_cases i <;> simp [encode, mask, value, place]

theorem sti (sr : Reg) (off9 : BitVec 9) : Statement (.sti sr off9) := by
  refine ⟨word_ext fun i => ?_, by simp only [mask, usedBits]; decide⟩
  fin_cases i <;> simp [encode, mask, value, place]

theorem jmp (baseR : Reg) : Statement (.jmp baseR) := by
  refine ⟨word_ext fun i => ?_, by simp only [mask, usedBits]; decide⟩
  fin_cases i <;> simp [encode, mask, value, place]

theorem res : Statement .res := by unfold Statement; decide

theorem lea (dr : Reg) (off9 : BitVec 9) : Statement (.lea dr off9) := by
  refine ⟨word_ext fun i => ?_, by simp only [mask, usedBits]; decide⟩
  fin_cases i <;> simp [encode, mask, value, place]

theorem trapGetc : Statement .trapGetc := by unfold Statement; decide

theorem trapOut : Statement .trapOut := by unfold Statement; decide

theorem trapPuts : Statement .trapPuts := by unfold Statement; decide

theorem trapIn : Statement .trapIn := by unfold Statement; decide

theorem trapPutsp : Statement .trapPutsp := by unfold Statement; decide

theorem trapHalt : Statement .trapHalt := by unfold Statement; decide

theorem trapUndefined (vect : BitVec 8) : Statement (.trapUndefined vect) := by
  refine ⟨word_ext fun i => ?_, by simp only [mask, usedBits]; decide⟩
  fin_cases i <;> simp [encode, mask, value, place, trapWord]

end Sys2Proof.Laws.TableRow
end

