-- ==== Sys2Proof/Tests/Slice0.lean ====
section
/-! SUPPORT. Tests of the model on fixed values, each one step or one call, and the witnesses of the statements' hypotheses.
Expected results are the vectors of spec/95_test_vectors.md (A1, C14, T5, ...) and words written out by hand from
spec/30_encoding.md R52, R55. -/

namespace Sys2Proof.Tests

open Sys2Proof Sys2Proof.Machine

/-! ## Well-formedness -/

/-- The one check refuses TRAP terms that carry one of the six defined vectors. -/
theorem test_wellFormed_refuses_defined_vectors :
    (Instr.trapUndefined 0x20#8).wellFormed = false ∧ (Instr.trapUndefined 0x25#8).wellFormed = false ∧
    (Instr.trapUndefined 0x1F#8).wellFormed = true ∧ (Instr.trapUndefined 0x26#8).wellFormed = true := by decide

/-! ## Decoding, from words written out by hand -/

theorem test_decode_br : decode 0b0000_101_000000010#16 = .ok (.br true false true 2#9) := by decide
theorem test_decode_addReg : decode 0b0001_010_011_0_00_100#16 = .ok (.addReg 2 3 4) := by decide
theorem test_decode_addReg_ignored_bits : decode 0x14DC#16 = .ok (.addReg 2 3 4) := by decide
theorem test_decode_addImm : decode 0b0001_001_001_1_11111#16 = .ok (.addImm 1 1 0b11111#5) := by decide
theorem test_decode_ld : decode 0b0010_001_000000101#16 = .ok (.ld 1 5#9) := by decide
theorem test_decode_st : decode 0b0011_001_000000100#16 = .ok (.st 1 4#9) := by decide
theorem test_decode_jsr : decode 0b0100_1_10000000000#16 = .ok (.jsr 0b10000000000#11) := by decide
theorem test_decode_jsrr : decode 0b0100_0_11_010_111111#16 = .ok (.jsrr 2) := by decide
theorem test_decode_andReg : decode 0b0101_001_010_0_00_011#16 = .ok (.andReg 1 2 3) := by decide
theorem test_decode_andImm : decode 0b0101_001_010_1_10000#16 = .ok (.andImm 1 2 0b10000#5) := by decide
theorem test_decode_ldr : decode 0b0110_100_010_111111#16 = .ok (.ldr 4 2 0b111111#6) := by decide
theorem test_decode_str : decode 0b0111_011_101_000010#16 = .ok (.str 3 5 2#6) := by decide
theorem test_decode_rti : decode 0b1000_111111111111#16 = .ok .rti := by decide
theorem test_decode_not : decode 0b1001_001_010_000000#16 = .ok (.not 1 2) := by decide
theorem test_decode_ldi : decode 0b1010_110_100000000#16 = .ok (.ldi 6 0b100000000#9) := by decide
theorem test_decode_sti : decode 0b1011_010_000000011#16 = .ok (.sti 2 3#9) := by decide
theorem test_decode_jmp : decode 0b1100_111_011_111111#16 = .ok (.jmp 3) := by decide
theorem test_decode_res : decode 0b1101_111111111111#16 = .ok .res := by decide
theorem test_decode_lea : decode 0b1110_000_111111111#16 = .ok (.lea 0 0b111111111#9) := by decide

/-- The six defined vectors, one with bits 11:8 set, and both neighbours of the range. -/
theorem test_decode_traps :
    decode 0xF020#16 = .ok .trapGetc ∧ decode 0xFA21#16 = .ok .trapOut ∧ decode 0xF022#16 = .ok .trapPuts ∧
    decode 0xF023#16 = .ok .trapIn ∧ decode 0xF024#16 = .ok .trapPutsp ∧ decode 0xFF25#16 = .ok .trapHalt ∧
    decode 0xF01F#16 = .ok (.trapUndefined 0x1F#8) ∧ decode 0xF026#16 = .ok (.trapUndefined 0x26#8) := by decide

/-- Words an assembler writes (spec/95_test_vectors.md A1, A16, C8's JMP, T16). -/
theorem test_encode :
    encode (.addReg 2 3 4) = 0x14C4#16 ∧ encode (.not 1 2) = 0x92BF#16 ∧ encode (.jmp 3) = 0xC0C0#16 ∧
    encode (.ldr 4 2 0x3F#6) = 0x68BF#16 ∧ encode .trapHalt = 0xF025#16 := by decide

/-- The host's entry to the decoder: bits from `nbits` up are dropped. -/
theorem test_decodeTableWord :
    decodeTableWord 16 0x1042 = some (.addReg 0 1 2) ∧ decodeTableWord 16 0x1F025 = some .trapHalt := by decide

/-! ## One step on a small state -/

/-- The next state of an outcome, if it is one. -/
def nextOf : Host.Outcome State Fault Refusal → Option State
  | .next t => some t
  | .fault _ | .refused _ => none

/-- The state after a step, if there is one. -/
def after (s : State) : Option State := nextOf (step s)

/-- One step from a state with a word at its pc. -/
def run1 (w : Word) (s : State) : Option State := after (s.placeWord w)

/-- The reset state with some registers set. -/
def regs (l : List (Reg × Word)) : State := l.foldl (fun s c => s.setReg c.1 c.2) State.reset

/-- A state with some cells stored. -/
def cells (l : List (Word × Word)) (s : State) : State := l.foldl (fun t c => t.poke c.1 c.2) s

/-- A state with bytes pending on the keyboard. -/
def keys (l : List Byte) (s : State) : State := s.arrive l

/-- The reset state with a pc. -/
def atPc (a : Word) : State := State.reset.setPc a

/-! ### ADD, AND, NOT -/

theorem test_add_A1 :
    (run1 0x14C4#16 (regs [(3, 0x0005#16), (4, 0xFFFE#16)])).map (fun t => (t.reg 2, t.cond, t.pc)) =
      some (0x0003#16, .pos, 0x3001#16) := by decide

theorem test_add_overflow_A3 :
    (run1 0x1042#16 (regs [(1, 0x7FFF#16), (2, 0x0001#16)])).map (fun t => (t.reg 0, t.cond)) =
      some (0x8000#16, .neg) := by decide

theorem test_addImm_A6 :
    (run1 0x127F#16 State.reset).map (fun t => (t.reg 1, t.cond)) = some (0xFFFF#16, .neg) := by decide

theorem test_addImm_A9 :
    (run1 0x1270#16 (regs [(1, 0x0010#16)])).map (fun t => (t.reg 1, t.cond)) = some (0x0000#16, .zro) := by decide

theorem test_and_A11 :
    (run1 0x5283#16 (regs [(2, 0xF0F0#16), (3, 0x3C3C#16)])).map (fun t => (t.reg 1, t.cond)) =
      some (0x3030#16, .pos) := by decide

theorem test_andImm_A14 :
    (run1 0x5270#16 (regs [(1, 0x00FF#16)])).map (fun t => (t.reg 1, t.cond)) = some (0x00F0#16, .pos) := by decide

theorem test_andImm_A13 :
    (run1 0x527F#16 (regs [(1, 0x8001#16)])).map (fun t => (t.reg 1, t.cond)) = some (0x8001#16, .neg) := by decide

theorem test_not_A16 :
    (run1 0x92BF#16 (regs [(2, 0x00FF#16)])).map (fun t => (t.reg 1, t.reg 2, t.cond)) =
      some (0xFF00#16, 0x00FF#16, .neg) := by decide

theorem test_not_A17 :
    (run1 0x927F#16 ((regs [(1, 0xFFFF#16)]).setCond .neg)).map (fun t => (t.reg 1, t.cond)) =
      some (0x0000#16, .zro) := by decide

/-! ### BR, JMP, JSR, JSRR -/

/-- The outcome table of spec/95_test_vectors.md 2.4, rows 001, 010 and 101. -/
theorem test_br_table :
    [Cond.neg, Cond.zro, Cond.pos].map (fun c => [0x0202#16, 0x0402#16, 0x0A02#16].map fun w =>
      (run1 w ((atPc 0x3005#16).setCond c)).map State.pc) =
    [[some 0x3006#16, some 0x3006#16, some 0x3008#16], [some 0x3006#16, some 0x3008#16, some 0x3006#16],
      [some 0x3008#16, some 0x3006#16, some 0x3008#16]] := by decide

theorem test_br_wraps_C4_C5 :
    (run1 0x0FFD#16 (atPc 0x0000#16)).map State.pc = some 0xFFFE#16 ∧
    (run1 0x0E01#16 (atPc 0xFFFF#16)).map State.pc = some 0x0001#16 := by decide

theorem test_jmp_C8 : (run1 0xCEFF#16 (regs [(3, 0x4000#16)])).map State.pc = some 0x4000#16 := by decide

theorem test_jsr_C11 :
    (run1 0x4C00#16 State.reset).map (fun t => (t.reg 7, t.pc)) = some (0x3001#16, 0x2C01#16) := by decide

theorem test_jsr_C13 :
    (run1 0x4800#16 (State.reset.setCond .neg)).map (fun t => (t.reg 7, t.pc, t.cond)) =
      some (0x3001#16, 0x3001#16, .neg) := by decide

theorem test_jsrr_C14 :
    (run1 0x4080#16 ((regs [(2, 0x5000#16)]).setPc 0x3010#16)).map (fun t => (t.reg 7, t.pc)) =
      some (0x3011#16, 0x5000#16) := by decide

theorem test_jsrr_r7_C15 :
    (run1 0x41C0#16 ((regs [(7, 0x5000#16)]).setPc 0x3010#16)).map (fun t => (t.reg 7, t.pc)) =
      some (0x3011#16, 0x3011#16) := by decide

/-! ### LD, LDI, LDR, LEA -/

theorem test_ld_L1 :
    (run1 0x2205#16 (cells [(0x3006#16, 0x8001#16)] State.reset)).map (fun t => (t.reg 1, t.cond, t.pc)) =
      some (0x8001#16, .neg, 0x3001#16) := by decide

theorem test_ld_wraps_L3 :
    (run1 0x2201#16 (cells [(0x0000#16, 0x7777#16)] (atPc 0xFFFE#16))).map (fun t => (t.reg 1, t.pc)) =
      some (0x7777#16, 0xFFFF#16) := by decide

theorem test_ldi_L7 :
    (run1 0xA002#16 (keys [0x41#8] (cells [(0x3003#16, 0xFE00#16), (0xFE00#16, 0x0001#16)] State.reset))).map
      (fun t => (t.reg 0, t.cond, t.peek 0xFE00#16, t.peek 0xFE02#16, t.kbd)) =
    some (0x8001#16, .neg, 0x8001#16, 0x0041#16, []) := by decide

theorem test_ldi_L8 :
    (run1 0xA002#16 (keys [0x42#8] (cells [(0x3003#16, 0xFE02#16), (0xFE02#16, 0x0041#16), (0xFE00#16, 0x8000#16)]
      State.reset))).map (fun t => (t.reg 0, t.cond, t.peek 0xFE00#16, t.kbd)) =
    some (0x0041#16, .pos, 0x8000#16, [0x42#8]) := by decide

theorem test_ldr_L11 :
    (run1 0x62BF#16 (cells [(0xFFFF#16, 0x9999#16)] State.reset)).map (fun t => (t.reg 1, t.cond)) =
      some (0x9999#16, .neg) := by decide

theorem test_ldr_same_register_L12 :
    (run1 0x6480#16 (cells [(0x4000#16, 0x4321#16)] (regs [(2, 0x4000#16)]))).map (fun t => t.reg 2) =
      some 0x4321#16 := by decide

theorem test_lea_no_poll_L16 :
    (run1 0xE000#16 (keys [0x41#8] (atPc 0xFDFF#16))).map (fun t => (t.reg 0, t.cond, t.kbd)) =
      some (0xFE00#16, .neg, [0x41#8]) := by decide

theorem test_lea_L14 :
    (run1 0xE1FF#16 (atPc 0x8000#16)).map (fun t => (t.reg 0, t.cond, t.pc)) =
      some (0x8000#16, .neg, 0x8001#16) := by decide

/-! ### ST, STI, STR -/

theorem test_st_M1 :
    (run1 0x3204#16 ((regs [(1, 0xBEEF#16)]).setCond .pos)).map (fun t => (t.peek 0x3005#16, t.cond)) =
      some (0xBEEF#16, .pos) := by decide

theorem test_st_self_M3 :
    (run1 0x33FF#16 (regs [(1, 0x1111#16)])).map (fun t => (t.peek 0x3000#16, t.pc)) =
      some (0x1111#16, 0x3001#16) := by decide

theorem test_sti_M6 :
    (run1 0xB403#16 (cells [(0x3004#16, 0x3004#16)] (regs [(2, 0x1234#16)]))).map (fun t => t.peek 0x3004#16) =
      some 0x1234#16 := by decide

theorem test_str_M9 :
    (run1 0x7760#16 (regs [(5, 0x0010#16), (3, 0x00AA#16)])).map (fun t => t.peek 0xFFF0#16) =
      some 0x00AA#16 := by decide

/-! ### RTI, RES -/

theorem test_rti_X1 :
    (run1 0x8000#16 ((regs [(1, 0x0005#16)]).setCond .neg)).map (fun t => (t.pc, t.reg 1, t.cond, t.run)) =
      some (0x3001#16, 0x0005#16, .neg, .running) := by decide

theorem test_res_X3 :
    (run1 0xD000#16 State.reset).map (fun t => (t.pc, t.run, t.err)) = some (0x3001#16, .running, []) := by decide

/-! ### TRAP -/

theorem test_getc_T3 :
    (run1 0xF020#16 (keys [0xFF#8, 0x62#8] State.reset)).map (fun t => (t.reg 7, t.reg 0, t.cond, t.kbd, t.wait)) =
      some (0x3001#16, 0x00FF#16, .pos, [0x62#8], .none) := by decide

theorem test_getc_hold_T4 :
    (run1 0xF020#16 ((regs [(0, 0xABCD#16)]).setCond .neg)).map (fun t => (t.pc, t.reg 7, t.wait, t.reg 0, t.cond)) =
      some (0x3001#16, 0x3001#16, .getc, 0xABCD#16, .neg) := by decide

theorem test_out_T13 :
    (run1 0xF021#16 ((regs [(0, 0x1241#16)]).setCond .neg)).map (fun t => (t.out, t.reg 7, t.cond)) =
      some ([.byte 0x41#8], 0x3001#16, .neg) := by decide

/-- T5: "Hi", and the cell after the terminator is not emitted. -/
theorem test_puts_T5 :
    (run1 0xF022#16 (cells [(0x4000#16, 0x0048#16), (0x4001#16, 0x0069#16), (0x4003#16, 0x0021#16)]
      (regs [(0, 0x4000#16)]))).map (fun t => (t.out, t.reg 7, t.reg 0)) =
    some ([.byte 0x48#8, .byte 0x69#8], 0x3001#16, 0x4000#16) := by decide

/-- T10: the walk polls at 0xFE00 and then emits the KBDR value that the poll wrote. -/
theorem test_puts_T10 :
    (run1 0xF022#16 (keys [0x7A#8] (cells [(0xFDFF#16, 0x0041#16), (0xFE00#16, 0x0043#16), (0xFE01#16, 0x0044#16)]
      (regs [(0, 0xFDFF#16)])))).map (fun t => (t.out, t.peek 0xFE00#16, t.peek 0xFE02#16, t.kbd)) =
    some ([.byte 0x41#8, .byte 0x43#8, .byte 0x44#8, .byte 0x7A#8], 0x8043#16, 0x007A#16, []) := by decide

theorem test_in_T14 :
    (run1 0xF023#16 (keys [0x79#8] State.reset)).map (fun t => (t.reg 0, t.cond, t.reg 7, t.wait)) =
      some (0x0079#16, .pos, 0x3001#16, .none) := by decide

/-- T15, its second part: a held IN echoes the byte that arrives and stores it. -/
theorem test_in_hold_completes_T15 :
    (after { State.reset with wait := .inp, arrivals := [[0x79#8]] }).map
      (fun t => (t.out, t.reg 0, t.cond, t.wait, t.pc)) =
    some ([.byte 0x79#8], 0x0079#16, .pos, .none, 0x3000#16) := by decide

theorem test_putsp_T11 :
    (run1 0xF024#16 (cells [(0x4000#16, 0x6548#16), (0x4001#16, 0x006C#16)] (regs [(0, 0x4000#16)]))).map State.out =
      some [.byte 0x48#8, .byte 0x65#8, .byte 0x6C#8] := by decide

theorem test_putsp_T12 :
    (run1 0xF024#16 (cells [(0x4000#16, 0x4100#16), (0x4001#16, 0x0042#16)] (regs [(0, 0x4000#16)]))).map State.out =
      some [.byte 0x00#8, .byte 0x41#8, .byte 0x42#8] := by decide

theorem test_halt_T16 :
    (run1 0xF025#16 ((atPc 0x3004#16).setCond .pos)).map (fun t => (t.reg 7, t.pc, t.run, t.out, t.cond)) =
      some (0x3005#16, 0x3005#16, .halted, [.flush], .pos) := by decide

theorem test_undefined_vector_T18 :
    (run1 0xF026#16 (State.reset.setCond .neg)).map (fun t => (t.reg 7, t.err, t.cond, t.run)) =
      some (0x3001#16, [.invalidTrapVector 0x26#8], .neg, .running) := by decide

/-! ### Ports, fetch and step -/

theorem test_poll_K1 :
    ((cells [(0xFE00#16, 0x1234#16)] State.reset).memRead 0xFE00#16).1 = 0x0000#16 := by decide

theorem test_poll_K2 :
    ((keys [0x41#8] State.reset).memRead 0xFE00#16).1 = 0x8000#16 ∧
    ((keys [0x41#8] State.reset).memRead 0xFE00#16).2.peek 0xFE02#16 = 0x0041#16 := by decide

theorem test_fetch_K9 :
    (after (keys [0x41#8] (atPc 0xFE00#16))).map (fun t => (t.peek 0xFE00#16, t.peek 0xFE02#16, t.pc, t.kbd)) =
      some (0x8000#16, 0x0041#16, 0xFE01#16, []) := by decide

/-- A fetch from 0xFE00 that finds a byte over a stored 0x7021 runs 0xF021, an OUT
(40_fetch_decode_dispatch.md R72, 20_memory.md R33). -/
theorem test_fetch_kbsr_runs_updated_word :
    (after (keys [0x41#8] (cells [(0xFE00#16, 0x7021#16)] ((regs [(0, 0x1242#16)]).setPc 0xFE00#16)))).map
      (fun t => (t.out, t.peek 0xFE00#16, t.peek 0xFE02#16, t.pc)) =
    some ([.byte 0x42#8], 0xF021#16, 0x0041#16, 0xFE01#16) := by decide

/-- The host's placement: the next step runs the word, as the first instruction after reset. -/
theorem test_withFetchWord :
    (after (State.reset.withFetchWord 16 0xE004)).map (fun t => t.reg 0) = some 0x3005#16 := by decide

theorem test_halted_takes_no_step : step (State.reset.setRun .halted) = .refused .halted := rfl

theorem test_faulted_takes_no_step :
    step (State.reset.setRun (.faulted (.invalidOpcode 0xD#4))) = .fault (.faulted (.invalidOpcode 0xD#4)) := rfl

/-! ### Loader -/

/-- An image whose source numbers its errors. -/
def image (bytes : List Byte) (ending : SourceEnd Nat) : ImageSource Nat := ⟨bytes, ending⟩

theorem test_load_I1_I2 :
    load (image [] .eof) = .error .truncated ∧ load (image [0x30#8] .eof) = .error .truncated := by decide

/-- I4 and I5: a trailing byte is dropped. -/
theorem test_load_I5 :
    load (image [0x30#8, 0x00#8, 0x12#8, 0x34#8, 0x56#8] .eof) = .ok [(0x6000, 0x12#8), (0x6001, 0x34#8)] := by decide

/-- I6: the load stops at the top of the address space. -/
theorem test_load_I6 :
    load (image [0xFF#8, 0xFF#8, 0x11#8, 0x11#8, 0x22#8, 0x22#8] .eof) =
      .ok [(0x1FFFE, 0x11#8), (0x1FFFF, 0x11#8)] := by decide

/-- I9: the source's own error comes out. -/
theorem test_load_I9 : load (image [0x30#8, 0x00#8, 0x12#8] (.ioError 5)) = .error (.io 5) := by decide

/-! ## Witnesses: for each statement with hypotheses, values that meet them

For a statement of several clauses, one conjunct for each clause, in its order, at the ends of its range where it has one. -/

/-- A held machine with nothing pending, a byte due, or a byte pending. -/
def held (w : WaitState) (kbd : List Byte) (arrivals : List (List Byte)) : State :=
  { State.reset with wait := w, kbd := kbd, arrivals := arrivals }

/-- A state with the string "Hi" at 0x4000 and R0 pointing at it. -/
def hiState : State := cells [(0x4000#16, 0x0048#16), (0x4001#16, 0x0069#16)] (regs [(0, 0x4000#16)])

theorem witness_DecodeOfEncode :
    (Instr.ldr 7 0 0x3F#6).wellFormed = true ∧ (Instr.trapUndefined 0xFF#8).wellFormed = true := by decide

theorem witness_EncodeOfDecodeOnUsedBits : decode 0x9280#16 = .ok (.not 1 2) := by decide

theorem witness_IgnoredBitsDoNotMatter :
    decode 0x14C4#16 = .ok (.addReg 2 3 4) ∧
    0x14DC#16 &&& usedBits (.addReg 2 3 4) = 0x14C4#16 &&& usedBits (.addReg 2 3 4) := by decide

/-- Every opcode number, both mode bits, and the vectors at the ends of each range. -/
theorem witness_DecodingProcedure :
    (∀ op : BitVec 4, ((op ++ 0x000#12 : Word).extractLsb' 12 4) = op) ∧
    (0x1020#16).getLsbD 5 = true ∧ (0x1000#16).getLsbD 5 = false ∧ (0x4800#16).getLsbD 11 = true ∧
    (0x4000#16).getLsbD 11 = false ∧ (0x5020#16).getLsbD 5 = true ∧ (0x5000#16).getLsbD 5 = false ∧
    (0x1F#8).toNat < 0x20 ∧ 0x25 < (0x26#8).toNat ∧ 0x25 < (0xFF#8).toNat := by decide

theorem witness_SignExtension : 1 ≤ 1 ∧ 1 ≤ 16 ∧ 1 ≤ 5 ∧ 5 ≤ 16 ∧ 16 ≤ 16 := by decide

theorem witness_StepRunsDecodedInstruction :
    (let s := atPc 0xFE00#16
     s.run = .running ∧ s.wait = .none ∧ decode (s.deliver.memRead s.pc).1 = .ok (.br false false false 0#9)) ∧
    (let s := State.reset.placeWord 0x1042#16
     s.run = .running ∧ s.wait = .none ∧ s.pc ≠ 0xFE00#16 ∧ decode (s.peek s.pc) = .ok (.addReg 0 1 2)) := by decide

theorem witness_StepIsTakenExactlyWhenRunning :
    (State.reset.setRun .halted).run = .halted ∧
    (State.reset.setRun (.faulted (.invalidOpcode 0xD#4))).run = .faulted (.invalidOpcode 0xD#4) ∧
    State.reset.run = .running ∧
    ((held .getc [] []).run = .running ∧ (held .getc [] []).wait ≠ .none ∧ (held .getc [] []).deliver.kbd = []) ∧
    ((held .inp [] [[0x41#8, 0x42#8]]).run = .running ∧ (held .inp [] [[0x41#8, 0x42#8]]).wait ≠ .none ∧
      (held .inp [] [[0x41#8, 0x42#8]]).deliver.kbd = 0x41#8 :: [0x42#8]) := by decide

theorem witness_FetchFromKbsrPolls :
    (let s := atPc 0xFE00#16
     s.run = .running ∧ s.wait = .none ∧ s.pc = 0xFE00#16 ∧ s.deliver.kbd = []) ∧
    (let s := keys [0x41#8] (cells [(0xFE00#16, 0x8FFF#16)] (atPc 0xFE00#16))
     s.run = .running ∧ s.wait = .none ∧ s.pc = 0xFE00#16 ∧ s.deliver.kbd = 0x41#8 :: [] ∧
       (s.peek 0xFE00#16).extractLsb' 12 3 = 0#3) := by decide

theorem witness_StepKeepsInvariant : State.reset.Inv ∧ ∃ t, step State.reset = .next t := ⟨by decide, _, rfl⟩

theorem witness_BootedRunsKeepInvariant :
    ∃ s t, boot Config.gprResetDefault [] [] (image [0x30#8, 0x00#8, 0xD0#8, 0x00#8] .eof) = .ok s ∧ Reaches s t ∧ s ≠ t :=
  ⟨_, _, rfl, .next (.start _) rfl, by decide⟩

theorem witness_ReadPort : (0xFDFF#16 : Word) ≠ 0xFE00#16 ∧ (0xFE01#16 : Word) ≠ 0xFE00#16 := by decide

theorem witness_KbsrPoll :
    keyboardKey (2 * 0xFE00 - 1) = false ∧ keyboardKey (2 * 0xFE01) = false ∧ State.reset.kbd = [] ∧
    (keys [0x41#8] State.reset).kbd = 0x41#8 :: [] := by decide

theorem witness_WritePort :
    (2 * 0xFE00 - 1 ≠ highKey 0xFE00#16 ∧ 2 * 0xFE00 - 1 ≠ lowKey 0xFE00#16) ∧
    (2 * 0xFE00 + 2 ≠ highKey 0xFE00#16 ∧ 2 * 0xFE00 + 2 ≠ lowKey 0xFE00#16) ∧
    (0xFE02#16 : Word) ≠ 0xFE00#16 := by decide

theorem witness_ReadAfterWrite :
    (0xFE02#16 : Word) ≠ 0xFE00#16 ∧ State.reset.kbd = [] ∧ (keys [0x41#8] State.reset).kbd ≠ [] := by decide

theorem witness_StoreIsSeenByNextFetch :
    State.reset.run = .running ∧ State.reset.wait = .none ∧ State.reset.pc ≠ 0xFE00#16 ∧
    decode 0xF025#16 = .ok .trapHalt := by decide

/-- Registers at the ends of the three ranges. -/
theorem witness_SetccRule :
    0x8000 ≤ ((regs [(0, 0x8000#16)]).reg 0).toNat ∧ (State.reset.reg 0).toNat = 0 ∧
    1 ≤ ((regs [(0, 0x0001#16)]).reg 0).toNat ∧ ((regs [(0, 0x7FFF#16)]).reg 0).toNat ≤ 0x7FFF := by decide

theorem witness_FlagWriters :
    (State.reset.wait = .none ∧ flagDest (.jmp 3) = none ∧ ∃ t, exec (.jmp 3) State.reset = .next t) ∧
    (State.reset.wait = .none ∧ flagDest (.lea 2 1#9) = some 2 ∧
      ∃ t, exec (.lea 2 1#9) State.reset = .next t ∧ t.wait = .none) ∧
    (∃ t, exec .trapGetc State.reset = .next t ∧ t.wait ≠ .none) ∧
    ((held .inp [0x41#8] []).wait ≠ .none ∧ ∃ t, step (held .inp [0x41#8] []) = .next t ∧ t.wait = .none) ∧
    ((held .getc [] []).wait ≠ .none ∧ ∃ t, step (held .getc [] []) = .next t ∧ t.wait ≠ .none) :=
  ⟨⟨rfl, rfl, _, rfl⟩, ⟨rfl, rfl, _, rfl, rfl⟩, ⟨_, rfl, by decide⟩, ⟨by decide, _, rfl, rfl⟩,
    by decide, _, rfl, by decide⟩

theorem witness_CondReadOnlyByBranch :
    (∀ n z p off9, (Instr.jsr 3#11) ≠ .br n z p off9) ∧ ∃ t, exec (.jsr 3#11) State.reset = .next t :=
  ⟨fun _ _ _ _ h => (by cases h), _, rfl⟩

theorem witness_RegisterFrame :
    flagDest (.jsrr 2) ≠ some 3 ∧ (links (.jsrr 2) = true → (3 : Reg) ≠ 7) ∧
    ∃ t, exec (.jsrr 2) State.reset = .next t := ⟨by decide, by decide, _, rfl⟩

/-- A store with a key just past its cell, an instruction that reads no memory, and reads that miss 0xFE00: an LD just
below it and a PUTS of "Hi". -/
theorem witness_MemoryFrame :
    ((∃ t, exec (.st 1 4#9) State.reset = .next t) ∧ keyboardKey 0x6006 = false ∧
      storeAddr State.reset (.st 1 4#9) = some 0x3004#16 ∧ 0x600A ≠ highKey 0x3004#16 ∧ 0x600A ≠ lowKey 0x3004#16) ∧
    ((∃ t, exec .rti State.reset = .next t) ∧ readsMemory .rti = false ∧ storeAddr State.reset .rti = none) ∧
    ((∃ t, exec (.ld 1 0x1FF#9) (atPc 0xFE00#16) = .next t) ∧ missesKbsr (atPc 0xFE00#16) (.ld 1 0x1FF#9)) ∧
    ((nextOf (exec .trapPuts hiState)).isSome = true ∧ missesKbsr hiState .trapPuts) :=
  ⟨⟨⟨_, rfl⟩, by decide⟩, ⟨⟨_, rfl⟩, by decide⟩, ⟨⟨_, rfl⟩, by simp only [missesKbsr]; decide⟩, by decide,
    2, by decide, by decide, by decide⟩

theorem witness_PcWriters :
    ((∃ t, exec .res State.reset = .next t) ∧ transfers .res = false) ∧
    (let s := State.reset.placeWord 0xD000#16
     s.run = .running ∧ s.wait = .none ∧ decode (s.deliver.memRead s.pc).1 = .ok .res ∧ ∃ t, step s = .next t) :=
  ⟨⟨⟨_, rfl⟩, rfl⟩, rfl, rfl, by decide, _, rfl⟩

theorem witness_RunLeavesRunningOnlyByHalt :
    (∃ t, step State.reset = .next t ∧ t.run = .running) ∧
    ∃ t, step (State.reset.placeWord 0xF025#16) = .next t ∧ t.run = .halted := ⟨⟨_, rfl, rfl⟩, _, rfl, rfl⟩

theorem witness_StreamFrame :
    (∃ t, step (keys [0x41#8] (State.reset.placeWord 0xF020#16)) = .next t ∧ t.kbd = []) ∧
    (∃ t, exec .trapOut State.reset = .next t) ∧ ∀ v, Instr.trapOut ≠ .trapUndefined v :=
  ⟨⟨_, rfl, rfl⟩, ⟨_, rfl⟩, fun _ h => by cases h⟩

theorem witness_BranchResult :
    (State.reset.cond = .zro ∧ (true = true ∧ State.reset.cond = .zro)) ∧
    ¬((true = true ∧ State.reset.cond = .neg) ∨ (false = true ∧ State.reset.cond = .zro) ∨
      (true = true ∧ State.reset.cond = .pos)) := by decide

theorem witness_JsrrResult : (6 : Reg) ≠ 7 := by decide

theorem witness_LoadResult :
    State.reset.pc + sext 5#9 ≠ 0xFE00#16 ∧ (regs [(2, 0xFE00#16)]).reg 2 + sext 0x3F#6 ≠ 0xFE00#16 := by decide

theorem witness_LdiRoundTrip :
    State.reset.pc + sext 2#9 ≠ 0xFE00#16 ∧ (0x4000#16 : Word) ≠ 0xFE00#16 ∧
    (0x4000#16 : Word) ≠ State.reset.pc + sext 2#9 := by decide

theorem witness_LdiPollsKeyboard :
    let s := cells [(0x3003#16, 0xFE00#16)] (atPc 0x3001#16)
    s.pc + sext 2#9 ≠ 0xFE00#16 ∧ s.peek (s.pc + sext 2#9) = 0xFE00#16 ∧ s.kbd = [] ∧
    (keys [0x41#8] s).peek ((keys [0x41#8] s).pc + sext 2#9) = 0xFE00#16 ∧
    (keys [0x41#8] s).kbd = 0x41#8 :: [] := by decide

theorem witness_StoreResult :
    let s := State.reset
    (0x6007 ≠ highKey (s.pcRelative 4#9) ∧ 0x6007 ≠ lowKey (s.pcRelative 4#9)) ∧
    (0x600A ≠ highKey (s.pcRelative 4#9) ∧ 0x600A ≠ lowKey (s.pcRelative 4#9)) ∧
    2 ≠ highKey (s.basePlus 0 0#6) ∧ 2 ≠ lowKey (s.basePlus 0 0#6) := by decide

theorem witness_StoreIndirectResult :
    let s := cells [(0x3003#16, 0x4000#16)] State.reset
    let p := s.memRead (s.pc + sext 3#9)
    0x7FFF ≠ highKey p.1 ∧ 0x7FFF ≠ lowKey p.1 ∧ s.pc + sext 3#9 ≠ 0xFE00#16 := by decide

theorem witness_StoresKeepFlagsRegistersAndPc :
    (Instr.sti 1 3#9 = .st 1 3#9 ∨ Instr.sti 1 3#9 = .sti 1 3#9 ∨ Instr.sti 1 3#9 = .str 1 0 0#6) ∧
    storeAddr State.reset (.sti 1 3#9) = some 0x0000#16 := by decide

theorem witness_TrapEntry :
    (∀ i ∈ [Instr.trapGetc, .trapOut, .trapPuts, .trapIn, .trapPutsp, .trapHalt, .trapUndefined 0x26#8],
      (nextOf (exec i State.reset)).isSome = true) ∧ (1 : Reg) ≠ 0 ∧ (6 : Reg) ≠ 7 := by decide

theorem witness_GetcResult : (keys [0x00#8, 0x41#8] State.reset).kbd = 0x00#8 :: [0x41#8] := by decide

theorem witness_InResult : (keys [0xFF#8] State.reset).kbd = 0xFF#8 :: [] := by decide

theorem witness_GetcAndInHold : State.reset.kbd = [] := by decide

theorem witness_HeldReadCompletes :
    ((held .getc [] [[0x41#8]]).run = .running ∧ (held .getc [] [[0x41#8]]).deliver.kbd = 0x41#8 :: [] ∧
      (held .getc [] [[0x41#8]]).wait = .getc) ∧
    ((held .inp [0x00#8] []).run = .running ∧ (held .inp [0x00#8] []).deliver.kbd = 0x00#8 :: [] ∧
      (held .inp [0x00#8] []).wait = .inp) := by decide

theorem witness_PutsResult :
    (∀ k, k ≤ 2 → hiState.reg 0 + BitVec.ofNat 16 k ≠ 0xFE00#16) ∧
    (∀ k, k < 2 → hiState.peek (hiState.reg 0 + BitVec.ofNat 16 k) ≠ 0x0000#16) ∧
    hiState.peek (hiState.reg 0 + BitVec.ofNat 16 2) = 0x0000#16 := by decide

/-- The empty string, n = 0. -/
theorem witness_PutspResult :
    let s := regs [(0, 0x4002#16)]
    (∀ k, k ≤ 0 → s.reg 0 + BitVec.ofNat 16 k ≠ 0xFE00#16) ∧
    (∀ k, k < 0 → s.peek (s.reg 0 + BitVec.ofNat 16 k) ≠ 0x0000#16) ∧
    s.peek (s.reg 0 + BitVec.ofNat 16 0) = 0x0000#16 := by decide

theorem witness_StringRoutinesAlwaysEnd :
    (Instr.trapPutsp = .trapPuts ∨ Instr.trapPutsp = .trapPutsp) ∧ keyboardKey (2 * 0xFE01) = false := by decide

/-- With and without a byte pending, at both ends of `m`, and for the clause of one crossing the memory of vector T10. -/
theorem witness_StringRoutinesAtKbsr :
    (let s := regs [(0, 0xFE00#16)]
     s.kbd = [] ∧ s.reg 0 + BitVec.ofNat 16 0 = 0xFE00#16 ∧ ∀ k, k < 0 → s.peek (s.reg 0 + BitVec.ofNat 16 k) ≠ 0#16) ∧
    (0xFE01#16 : Word) + BitVec.ofNat 16 65535 = 0xFE00#16 ∧
    (let s := keys [0x7A#8] (cells [(0xFDFF#16, 0x0041#16), (0xFE00#16, 0x0043#16), (0xFE01#16, 0x0044#16)]
      (regs [(0, 0xFDFF#16)]))
     let addr := fun k => s.reg 0 + BitVec.ofNat 16 k
     let polled := (s.poke 0xFE00#16 0x8043#16).poke 0xFE02#16 0x007A#16
     s.kbd = 0x7A#8 :: [] ∧ addr 1 = 0xFE00#16 ∧ (∀ k, k < 1 → s.peek (addr k) ≠ 0x0000#16) ∧
       (∀ k, k < 4 → 1 < k → polled.peek (addr k) ≠ 0x0000#16) ∧ polled.peek (addr 4) = 0x0000#16 ∧
       (nextOf (exec .trapPuts (polled.setReg 0 0xFE01#16))).isSome = true ∧
       (nextOf (exec .trapPutsp (polled.setReg 0 0xFE01#16))).isSome = true) := by decide

theorem witness_LoadStoresWords : ([] : List Byte).length ≤ 1 ∧ [0x56#8].length ≤ 1 := by decide

/-- No byte, one byte, and both sides of the bound on an I/O error after the origin 0xFFFF. -/
theorem witness_LoadErrors :
    ([] : List Byte).length < 2 ∧ [0x30#8].length < 2 ∧
    [0x11#8].length / 2 < 65536 - (256 * (0xFF#8).toNat + (0xFF#8).toNat) ∧
    ¬[0x11#8, 0x22#8].length / 2 < 65536 - (256 * (0xFF#8).toNat + (0xFF#8).toNat) := by decide

theorem witness_BootSequence :
    load (image [] .eof) = .error .truncated ∧ load (image [0x30#8, 0x00#8] .eof) = .ok [] := by decide

end Sys2Proof.Tests
end

section
/-! The register file (10_state.md R10). -/

namespace Sys2Proof.Machine

/-- Settles O23: the written register reads back the written value, any other register its old one, and the
register vector is the only field that a write touches. -/
theorem registerFile : Obligations.RegisterFile := by
  unfold Obligations.RegisterFile
  intro s i v
  constructor
  · intro j
    by_cases h : j = i
    · rw [if_pos h, h, State.reg_setReg_same]
    · rw [if_neg h, State.reg_setReg_other s v (Ne.symm h)]
  · rfl

end Sys2Proof.Machine
end

section
/-! The memory write port (20_memory.md R34). -/

namespace Sys2Proof.Machine

/-- Settles O17: the write port is the bare store with no case for 0xFE00 or 0xFE02, so the laws of a store say what
the written cell holds and that every other byte and cell keeps its contents; `mem` is the only field it touches. -/
theorem writePort : Obligations.WritePort := by
  unfold Obligations.WritePort
  intro s a v
  rw [State.memWrite_eq]
  refine ⟨?stored, ?otherBytes, ?otherCells, ?otherFields⟩
  case stored => exact State.peek_poke_same s a v
  case otherBytes => exact fun _ hHigh hLow => State.peekByte_poke_ne s a v hHigh hLow
  case otherCells => exact fun _ hne => State.peek_poke_ne s v hne
  case otherFields => rfl

end Sys2Proof.Machine
end

section
/-! Sign extension of instruction fields (30_encoding.md R53). -/

namespace Sys2Proof.Machine

/-- The 1s that fill the bits above a field of n bits weigh `2 ^ 16 - 2 ^ n`, and they stand there exactly when the
field's top bit is set. -/
theorem toNat_sext {n : Nat} (v : BitVec n) (hn : n ≤ 16) :
    (sext v).toNat = v.toNat + if v.getLsbD (n - 1) then 2 ^ 16 - 2 ^ n else 0 := by
  rw [sext, BitVec.toNat_signExtend, BitVec.toNat_setWidth_of_le hn, BitVec.msb_eq_getLsbD_last]

theorem toInt_sext {n : Nat} (v : BitVec n) (hn : n ≤ 16) : (sext v).toInt = v.toInt :=
  BitVec.toInt_signExtend_of_le hn

/-- Settles O7: the formula by the field's top bit, where `2 ^ n ≤ 2 ^ 16` makes the formula's subtraction the weight
of the filled bits; the two's-complement value by `toInt_sext`. -/
theorem signExtension : Obligations.SignExtension := by
  unfold Obligations.SignExtension
  intro n v _ hn
  refine ⟨?formula, ?twosComplement⟩
  case formula =>
    rw [toNat_sext v hn]
    by_cases hsign : v.getLsbD (n - 1)
    · have hpow : 2 ^ n ≤ 2 ^ 16 := Nat.pow_le_pow_right (by decide) hn
      rw [if_pos hsign, if_pos hsign, Nat.add_sub_assoc hpow]
    · rw [if_neg hsign, if_neg hsign, Nat.add_zero]
  case twosComplement => exact toInt_sext v hn

end Sys2Proof.Machine
end

section
/-! The condition flags (40_fetch_decode_dispatch.md R75). -/

namespace Sys2Proof.Machine

theorem bit15_iff_le_toNat (v : Word) : v.getLsbD 15 = true ↔ 0x8000 ≤ v.toNat := by
  have hmsb : v.getLsbD 15 = decide (0x8000 ≤ v.toNat) :=
    (BitVec.msb_eq_getLsbD_last v).symm.trans (BitVec.msb_eq_decide v)
  rw [hmsb, decide_eq_true_iff]

theorem condOf_eq_neg_iff (v : Word) : condOf v = .neg ↔ 0x8000 ≤ v.toNat := by
  rw [← bit15_iff_le_toNat, condOf]
  split_ifs with hbit hzero
  · exact iff_of_true rfl hbit
  · exact iff_of_false (by decide) hbit
  · exact iff_of_false (by decide) hbit

/-- The test of bit 15 comes before the test for 0, and 0 fails it. -/
theorem condOf_eq_zro_iff (v : Word) : condOf v = .zro ↔ v.toNat = 0 := by
  rw [condOf]
  split_ifs with hbit hzero
  · have hle : 0x8000 ≤ v.toNat := (bit15_iff_le_toNat v).mp hbit
    exact iff_of_false (by decide) (by omega)
  · exact iff_of_true rfl (by rw [hzero]; rfl)
  · exact iff_of_false (by decide) fun h => hzero (BitVec.eq_of_toNat_eq h)

/-- POS is the flag that is neither of the other two, so its range is what theirs leave. -/
theorem condOf_eq_pos_iff (v : Word) : condOf v = .pos ↔ 1 ≤ v.toNat ∧ v.toNat ≤ 0x7FFF := by
  have hother : condOf v = .pos ↔ ¬condOf v = .neg ∧ ¬condOf v = .zro := by
    cases condOf v <;> decide
  rw [hother, condOf_eq_neg_iff, condOf_eq_zro_iff]
  omega

@[simp] theorem State.setcc_cond (s : State) (i : Reg) : (s.setcc i).cond = condOf (s.reg i) := rfl

/-- Settles O20: `setcc` leaves the flag of the register's current value in `cond`, and each flag has its range of
values; `cond` is the only field it touches. -/
theorem setccRule : Obligations.SetccRule := by
  unfold Obligations.SetccRule
  intro s i
  rw [State.setcc_cond]
  refine ⟨?chain, ?negative, ?zero, ?positive, ?otherFields⟩
  case chain => rfl
  case negative => exact condOf_eq_neg_iff (s.reg i)
  case zero => exact condOf_eq_zro_iff (s.reg i)
  case positive => exact condOf_eq_pos_iff (s.reg i)
  case otherFields => rfl

end Sys2Proof.Machine
end

section
/-! The stores (44_store.md R120 to R123). -/

namespace Sys2Proof.Machine

theorem exec_st_eq (s : State) (sr : Reg) (off9 : BitVec 9) :
    exec (.st sr off9) s = .next (s.poke (s.pcRelative off9) (s.reg sr)) := rfl

/-- The pointer read leaves the registers alone, so the word stored is the one held before it. -/
theorem exec_sti_eq (s : State) (sr : Reg) (off9 : BitVec 9) :
    exec (.sti sr off9) s = .next ((s.indirect off9).2.poke (s.indirect off9).1 (s.reg sr)) := by
  have hreg : (s.indirect off9).2.reg sr = s.reg sr := State.memRead_reg s (s.pcRelative off9) sr
  rw [← hreg]
  rfl

theorem exec_str_eq (s : State) (sr baseR : Reg) (off6 : BitVec 6) :
    exec (.str sr baseR off6) s = .next (s.poke (s.basePlus baseR off6) (s.reg sr)) := rfl

/-- What a store can do, said once for the three: after at most the effect of a read (the pointer read of STI), one write
of the source register's word at the store address. -/
theorem exec_store_eq_poke {i : Instr} {sr baseR : Reg} {off9 : BitVec 9} {off6 : BitVec 6} (s : State)
    (h : i = .st sr off9 ∨ i = .sti sr off9 ∨ i = .str sr baseR off6) :
    ∃ r a, ReadEffect s r ∧ storeAddr s i = some a ∧ exec i s = .next (r.poke a (s.reg sr)) := by
  rcases h with rfl | rfl | rfl
  · exact ⟨s, _, ReadEffect.refl s, rfl, exec_st_eq s sr off9⟩
  · exact ⟨_, _, s.indirect_effect off9, rfl, exec_sti_eq s sr off9⟩
  · exact ⟨s, _, ReadEffect.refl s, rfl, exec_str_eq s sr baseR off6⟩

/-- Settles O44: every store is one write of the register's word after at most the effect of a read
(`exec_store_eq_poke`); neither touches `cond`, `regs` or `pc`, and the word written is read back. -/
theorem storesKeepFlagsRegistersAndPc : Obligations.StoresKeepFlagsRegistersAndPc := by
  unfold Obligations.StoresKeepFlagsRegistersAndPc
  intro i s sr baseR off9 off6 hstore
  obtain ⟨r, a, hread, haddr, hexec⟩ := exec_store_eq_poke s hstore
  refine ⟨r.poke a (s.reg sr), hexec, ?cond, ?regs, ?pc, ?stored⟩
  case cond => rw [State.poke_cond, hread.rest]
  case regs => rw [State.poke_regs, hread.rest]
  case pc => rw [State.poke_pc, hread.rest]
  case stored =>
    intro b hb
    obtain rfl : a = b := Option.some.inj (haddr.symm.trans hb)
    exact State.peek_poke_same r a (s.reg sr)

end Sys2Proof.Machine
end

section
/-! The instruction codec (30_encoding.md): what a word decodes to, as conditions on the fields of the word. -/

namespace Sys2Proof

/-! ## Fields of a word -/

theorem getElem_field (w : Word) {lo n k : Nat} (hk : k < n) : (field w lo n)[k] = w.getLsbD (lo + k) :=
  BitVec.getElem_extractLsb' hk

theorem getLsbD_place {n : Nat} (v : BitVec n) (lo k : Nat) :
    (place v lo).getLsbD k = (decide (k < 16 ∧ lo ≤ k) && v.getLsbD (k - lo)) := by
  rw [place, BitVec.getLsbD_shiftLeft, BitVec.getLsbD_setWidth]
  by_cases hk : k < 16
  · simp only [hk, show k - lo < 16 by omega, decide_true, Bool.true_and, ← decide_not, not_lt, true_and]
  · simp [hk]

theorem field_or (v w : Word) (lo n : Nat) : field (v ||| w) lo n = field v lo n ||| field w lo n := by
  apply BitVec.eq_of_getElem_eq
  intro k hk
  rw [BitVec.getElem_or, getElem_field, getElem_field, getElem_field, BitVec.getLsbD_or]

theorem field_place_same {n : Nat} (v : BitVec n) {lo : Nat} (h : lo + n ≤ 16) : field (place v lo) lo n = v := by
  apply BitVec.eq_of_getElem_eq
  intro k hk
  rw [getElem_field, getLsbD_place]
  simp [hk, show lo + k < 16 by omega]

theorem field_place_other {n : Nat} (v : BitVec n) {lo lo' m : Nat} (h : lo' + m ≤ lo ∨ lo + n ≤ lo') :
    field (place v lo) lo' m = 0#m := by
  apply BitVec.eq_of_getElem_eq
  intro k hk
  rw [getElem_field, getLsbD_place, BitVec.getElem_zero]
  rcases h with hbelow | habove
  · simp [show ¬lo ≤ lo' + k by omega]
  · simp [BitVec.getLsbD_of_ge v (lo' + k - lo) (by omega)]

/-- A mode or condition bit is the field of width one. -/
theorem field_bit (w : Word) (k : Nat) : field w k 1 = BitVec.ofBool (w.getLsbD k) := by
  apply BitVec.eq_of_getElem_eq
  intro j hj
  obtain rfl : j = 0 := by omega
  rw [getElem_field]
  simp

/-! ## Words that agree on a field -/

/-- The bits of one field, as a mask. -/
def fieldMask (lo n : Nat) : Word := place (BitVec.allOnes n) lo

/-- A word cut down to a field is the field's value at its place. -/
theorem and_fieldMask (w : Word) (lo n : Nat) : w &&& fieldMask lo n = place (field w lo n) lo := by
  apply BitVec.eq_of_getLsbD_eq
  intro k hk
  rw [BitVec.getLsbD_and, fieldMask, getLsbD_place, getLsbD_place, field, BitVec.getLsbD_extractLsb',
    BitVec.getLsbD_allOnes]
  by_cases hlo : lo ≤ k
  · simp [hlo, hk, Bool.and_comm]
  · simp [hlo]

/-- Words agree on the bits of a field exactly when they hold the same value in it. -/
theorem and_fieldMask_eq_iff (v w : Word) {lo n : Nat} (h : lo + n ≤ 16) :
    v &&& fieldMask lo n = w &&& fieldMask lo n ↔ field v lo n = field w lo n := by
  rw [and_fieldMask, and_fieldMask]
  refine ⟨fun he => ?_, fun he => by rw [he]⟩
  rw [← field_place_same (field v lo n) h, he, field_place_same _ h]

/-- Words agree on two masks together exactly when they agree on each. -/
theorem and_or_eq_iff (v w m m' : Word) :
    v &&& (m ||| m') = w &&& (m ||| m') ↔ v &&& m = w &&& m ∧ v &&& m' = w &&& m' := by
  constructor
  · intro h
    have hcut : ∀ c : Word, (m ||| m') &&& c = c → v &&& c = w &&& c := fun c hc => by
      rw [← hc, ← BitVec.and_assoc, h, BitVec.and_assoc]
    exact ⟨hcut m (by ext; simp +contextual), hcut m' (by ext; simp +contextual)⟩
  · rintro ⟨h, h'⟩
    rw [BitVec.and_or_distrib_left, BitVec.and_or_distrib_left, h, h']

/-! ## The formats of the instructions -/

/-- A field of an instruction format with the value that an instruction has there. -/
structure FieldValue where
  lo : Nat
  width : Nat
  value : BitVec width

/-- The field holds its value in a word. -/
def FieldValue.In (f : FieldValue) (w : Word) : Prop := field w f.lo f.width = f.value

/-- The field of a register operand. -/
def regOperand (r : Reg) (lo : Nat) : FieldValue := ⟨lo, 3, regBits r⟩

/-- The field of a mode bit or a condition bit. -/
def bitOperand (b : Bool) (k : Nat) : FieldValue := ⟨k, 1, BitVec.ofBool b⟩

/-- The field of an offset, an immediate or a trap vector: the low bits of the word. -/
def lowOperand {n : Nat} (v : BitVec n) : FieldValue := ⟨0, n, v⟩

/-- The opcode numbers: the position in the document's list (30_encoding.md R55). -/
def opcodeNumber (op : Opcode) : BitVec 4 := BitVec.ofNat 4 (opcodeList.idxOf op)

/-- The opcode of an instruction (30_encoding.md R52). -/
def Instr.opcode : Instr → Opcode
  | .br _ _ _ _ => .br
  | .addReg _ _ _ | .addImm _ _ _ => .add
  | .ld _ _ => .ld
  | .st _ _ => .st
  | .jsr _ | .jsrr _ => .jsr
  | .andReg _ _ _ | .andImm _ _ _ => .and
  | .ldr _ _ _ => .ldr
  | .str _ _ _ => .str
  | .rti => .rti
  | .not _ _ => .not
  | .ldi _ _ => .ldi
  | .sti _ _ => .sti
  | .jmp _ => .jmp
  | .res => .res
  | .lea _ _ => .lea
  | .trapGetc | .trapOut | .trapPuts | .trapIn | .trapPutsp | .trapHalt | .trapUndefined _ => .trap

/-- The fields below the opcode that the decoder reads (30_encoding.md R52, R57). -/
def Instr.operands : Instr → List FieldValue
  | .br n z p off9 => [bitOperand n 11, bitOperand z 10, bitOperand p 9, lowOperand off9]
  | .addReg dr sr1 sr2 | .andReg dr sr1 sr2 =>
    [regOperand dr 9, regOperand sr1 6, bitOperand false 5, regOperand sr2 0]
  | .addImm dr sr1 imm5 | .andImm dr sr1 imm5 =>
    [regOperand dr 9, regOperand sr1 6, bitOperand true 5, lowOperand imm5]
  | .ld r off9 | .st r off9 | .ldi r off9 | .sti r off9 | .lea r off9 => [regOperand r 9, lowOperand off9]
  | .jsr off11 => [bitOperand true 11, lowOperand off11]
  | .jsrr baseR => [bitOperand false 11, regOperand baseR 6]
  | .ldr r baseR off6 | .str r baseR off6 => [regOperand r 9, regOperand baseR 6, lowOperand off6]
  | .not dr sr1 => [regOperand dr 9, regOperand sr1 6]
  | .jmp baseR => [regOperand baseR 6]
  | .rti | .res => []
  | .trapGetc => [lowOperand 0x20#8]
  | .trapOut => [lowOperand 0x21#8]
  | .trapPuts => [lowOperand 0x22#8]
  | .trapIn => [lowOperand 0x23#8]
  | .trapPutsp => [lowOperand 0x24#8]
  | .trapHalt => [lowOperand 0x25#8]
  | .trapUndefined v => [lowOperand v]

/-- All fields of an instruction's format. -/
def Instr.format (i : Instr) : List FieldValue := ⟨12, 4, opcodeNumber i.opcode⟩ :: i.operands

theorem regOperand_in_iff (r : Reg) (lo : Nat) (w : Word) : (regOperand r lo).In w ↔ regField w lo = r :=
  ⟨fun h => by rw [regField, show field w lo 3 = regBits r from h]; rfl, fun h => by rw [← h]; rfl⟩

theorem bitOperand_in_iff (b : Bool) (k : Nat) (w : Word) : (bitOperand b k).In w ↔ w.getLsbD k = b := by
  rw [bitOperand, FieldValue.In, field_bit, BitVec.ofBool_eq_iff_eq]

theorem lowOperand_in_iff {n : Nat} (v : BitVec n) (w : Word) : (lowOperand v).In w ↔ field w 0 n = v := Iff.rfl

/-- The bits of some fields, as a mask. -/
def fieldsMask (fs : List FieldValue) : Word := (fs.map fun f => fieldMask f.lo f.width).foldr (· ||| ·) 0#16

/-- The used bits of an instruction are the bits of its format. -/
theorem usedBits_eq (i : Instr) : usedBits i = fieldsMask i.format := by
  cases i <;>
    (simp only [usedBits, fieldsMask, Instr.format, Instr.operands, regOperand, bitOperand, lowOperand, List.map_cons,
      List.map_nil]
     decide)

/-- An encoded instruction has the instruction's values in the fields of its format: of the values placed, one stands in
each field and the others miss it. -/
theorem format_in_encode (i : Instr) : ∀ f ∈ i.format, f.In (encode i) := by
  cases i <;>
    simp (disch := decide) [Instr.format, Instr.opcode, Instr.operands, FieldValue.In, regOperand, bitOperand,
      lowOperand, encode, trapWord, field_or, field_place_same, field_place_other] <;>
    decide

/-- The format has no field beyond bit 15. -/
theorem format_fits (i : Instr) : ∀ f ∈ i.format, f.lo + f.width ≤ 16 := by
  cases i <;> simp [Instr.format, Instr.operands, regOperand, bitOperand, lowOperand]

/-- Words agree on the bits of some fields exactly when they hold the same value in each. -/
theorem and_fieldsMask_eq_iff (v w : Word) {fs : List FieldValue} (h : ∀ f ∈ fs, f.lo + f.width ≤ 16) :
    v &&& fieldsMask fs = w &&& fieldsMask fs ↔ ∀ f ∈ fs, field v f.lo f.width = field w f.lo f.width := by
  induction fs with
  | nil => simp [fieldsMask]
  | cons f fs ih =>
    rw [List.forall_mem_cons] at h ⊢
    rw [← ih h.2, ← and_fieldMask_eq_iff v w h.1, ← and_or_eq_iff]
    rfl

/-- A word agrees with an instruction's own word on the used bits exactly when it is in the instruction's format. -/
theorem agrees_encode_iff (w : Word) (i : Instr) :
    w &&& usedBits i = encode i &&& usedBits i ↔ ∀ f ∈ i.format, f.In w := by
  rw [usedBits_eq, and_fieldsMask_eq_iff w (encode i) (format_fits i)]
  exact forall₂_congr fun f hf => by rw [format_in_encode i f hf, FieldValue.In]

/-! ## The decoder by formats -/

theorem opcodeOf_eq_some_iff (v : BitVec 4) (op : Opcode) : opcodeOf v = some op ↔ v = opcodeNumber op := by
  revert v
  cases op <;> decide

theorem exists_opcodeOf (v : BitVec 4) : ∃ op, opcodeOf v = some op := by
  rw [← Option.isSome_iff_exists]
  revert v
  decide

theorem decode_of_opcode {w : Word} {op : Opcode} (h : field w 12 4 = opcodeNumber op) :
    decode w = .ok (decodeOperands op w) := by
  rw [decode, (opcodeOf_eq_some_iff _ op).mpr h]

/-- Every word has one of the sixteen opcodes, so the decoder rejects none. -/
theorem exists_opcode_decode (w : Word) :
    ∃ op, field w 12 4 = opcodeNumber op ∧ decode w = .ok (decodeOperands op w) := by
  obtain ⟨op, hop⟩ := exists_opcodeOf (field w 12 4)
  have hnum := (opcodeOf_eq_some_iff _ op).mp hop
  exact ⟨op, hnum, decode_of_opcode hnum⟩

theorem definedVector_eq_false_iff {v : BitVec 8} : definedVector v = false ↔ v.toNat < 0x20 ∨ 0x25 < v.toNat := by
  rw [definedVector, Bool.and_eq_false_iff, decide_eq_false_iff_not, decide_eq_false_iff_not, BitVec.le_def,
    BitVec.le_def, not_le, not_le]
  rfl

theorem decodeTrap_of_undefined {v : BitVec 8} (h : definedVector v = false) : decodeTrap v = .trapUndefined v := by
  have hne : ∀ d, definedVector d = true → v ≠ d := by
    rintro d hd rfl
    rw [h] at hd
    cases hd
  rw [decodeTrap, if_neg (hne _ (by decide)), if_neg (hne _ (by decide)), if_neg (hne _ (by decide)),
    if_neg (hne _ (by decide)), if_neg (hne _ (by decide)), if_neg (hne _ (by decide))]

/-- A TRAP decodes to a well-formed instruction whose one operand is the vector. -/
theorem decodeTrap_spec (v : BitVec 8) :
    (decodeTrap v).opcode = .trap ∧ (decodeTrap v).wellFormed = true ∧ (decodeTrap v).operands = [lowOperand v] := by
  cases hv : definedVector v with
  | false =>
    rw [decodeTrap_of_undefined hv]
    exact ⟨rfl, by rw [Instr.wellFormed, hv]; rfl, rfl⟩
  | true =>
    have hv' : v ∈ [0x20#8, 0x21#8, 0x22#8, 0x23#8, 0x24#8, 0x25#8] := by revert v; decide
    fin_cases hv' <;> exact ⟨rfl, rfl, rfl⟩

/-- What an opcode and a word's fields give is well-formed, of that opcode, and with the word's values in its operands. -/
theorem decodeOperands_spec (op : Opcode) (w : Word) :
    (decodeOperands op w).opcode = op ∧ (decodeOperands op w).wellFormed = true ∧
      ∀ f ∈ (decodeOperands op w).operands, f.In w := by
  cases op with
  | trap =>
    obtain ⟨hop, hwf, hf⟩ := decodeTrap_spec (field w 0 8)
    refine ⟨hop, hwf, ?_⟩
    rw [decodeOperands, hf]
    simp [lowOperand_in_iff]
  | add | and | jsr =>
    simp only [decodeOperands]
    split_ifs <;>
      simp [*, -BitVec.getLsbD_eq_getElem, Instr.opcode, Instr.wellFormed, Instr.operands, regOperand_in_iff,
        bitOperand_in_iff, lowOperand_in_iff]
  | _ =>
    simp [decodeOperands, Instr.opcode, Instr.wellFormed, Instr.operands, regOperand_in_iff, bitOperand_in_iff,
      lowOperand_in_iff]

theorem decodeOperands_of_operands {i : Instr} {w : Word} (hwf : i.wellFormed = true) (h : ∀ f ∈ i.operands, f.In w) :
    decodeOperands i.opcode w = i := by
  cases i with
  | trapUndefined v =>
    have hv : field w 0 8 = v := h _ (List.mem_singleton_self _)
    have hund : definedVector v = false := by simpa [Instr.wellFormed] using hwf
    rw [Instr.opcode, decodeOperands, hv, decodeTrap_of_undefined hund]
  | trapGetc | trapOut | trapPuts | trapIn | trapPutsp | trapHalt =>
    have hv := (lowOperand_in_iff _ w).mp (h _ (List.mem_singleton_self _))
    rw [Instr.opcode, decodeOperands, hv]
    rfl
  | _ =>
    simp only [Instr.operands, List.forall_mem_cons, regOperand_in_iff, bitOperand_in_iff, lowOperand_in_iff] at h
    simp [-BitVec.getLsbD_eq_getElem, Instr.opcode, decodeOperands, h]

/-- The decoder by formats: a word decodes to exactly the well-formed instruction whose format it is in. -/
theorem decode_eq_ok_iff (w : Word) (i : Instr) :
    decode w = .ok i ↔ i.wellFormed = true ∧ ∀ f ∈ i.format, f.In w := by
  obtain ⟨op, hnum, hdec⟩ := exists_opcode_decode w
  constructor
  · intro h
    obtain rfl : decodeOperands op w = i := Except.ok.inj (hdec.symm.trans h)
    obtain ⟨hop, hwf, hf⟩ := decodeOperands_spec op w
    refine ⟨hwf, ?_⟩
    rw [Instr.format, List.forall_mem_cons, hop]
    exact ⟨hnum, hf⟩
  · rintro ⟨hwf, hf⟩
    rw [Instr.format, List.forall_mem_cons] at hf
    rw [decode_of_opcode hf.1, decodeOperands_of_operands hwf hf.2]

/-! ## The obligations -/

/-- Settles O1: an instruction's own word is in the instruction's format. -/
theorem decodeOfEncode : Obligations.DecodeOfEncode := by
  unfold Obligations.DecodeOfEncode
  intro i hwf
  exact (decode_eq_ok_iff (encode i) i).mpr ⟨hwf, format_in_encode i⟩

/-- Settles O2: a decoded word is in the format of its instruction, and the used bits are the bits of that format. -/
theorem encodeOfDecodeOnUsedBits : Obligations.EncodeOfDecodeOnUsedBits := by
  unfold Obligations.EncodeOfDecodeOnUsedBits
  intro w i hdec
  obtain ⟨hwf, hformat⟩ := (decode_eq_ok_iff w i).mp hdec
  exact ⟨hwf, ((agrees_encode_iff w i).mpr hformat).symm⟩

/-- Settles O3: both words agree with the instruction's own word on the used bits, so both are in its format. -/
theorem ignoredBitsDoNotMatter : Obligations.IgnoredBitsDoNotMatter := by
  unfold Obligations.IgnoredBitsDoNotMatter
  intro w w' i hdec hagree
  obtain ⟨hwf, hformat⟩ := (decode_eq_ok_iff w i).mp hdec
  have hencode : w' &&& usedBits i = encode i &&& usedBits i := hagree.trans ((agrees_encode_iff w i).mpr hformat)
  exact (decode_eq_ok_iff w' i).mpr ⟨hwf, (agrees_encode_iff w' i).mp hencode⟩

theorem executeWord_of_decode {w : Word} {i : Instr} (h : decode w = .ok i) (s : Machine.State) :
    Machine.executeWord w s = Machine.exec i s := by
  rw [Machine.executeWord, h]

/-- Settles O4: the list of opcodes holds every number of four bits. -/
theorem everyWordDecodes : Obligations.EveryWordDecodes := by
  unfold Obligations.EveryWordDecodes
  intro w s
  obtain ⟨op, -, hdec⟩ := exists_opcode_decode w
  exact ⟨decodeOperands op w, hdec, executeWord_of_decode hdec s⟩

/-- Settles O5: the opcode selects an arm of `decodeOperands`, the mode bit or the trap vector a branch of it. -/
theorem decodingProcedure : Obligations.DecodingProcedure := by
  unfold Obligations.DecodingProcedure
  intro w r op
  have hdec : ∀ o : Opcode, op = opcodeNumber o → decode w = .ok (decodeOperands o w) := fun _ => decode_of_opcode
  have hset : ∀ {o : Opcode} {b : Bool} {i j : Instr}, op = opcodeNumber o → b = true →
      decodeOperands o w = (if b then i else j) → decode w = .ok i := fun ho hb he => by
    rw [hdec _ ho, he, if_pos hb]
  have hclear : ∀ {o : Opcode} {b : Bool} {i j : Instr}, op = opcodeNumber o → b = false →
      decodeOperands o w = (if b then i else j) → decode w = .ok j := fun ho hb he => by
    rw [hdec _ ho, he, hb, if_neg Bool.false_ne_true]
  refine ⟨hdec .br, fun ho hb => hset (o := .add) ho hb rfl, fun ho hb => hclear (o := .add) ho hb rfl, hdec .ld,
    hdec .st, fun ho hb => hset (o := .jsr) ho hb rfl, fun ho hb => hclear (o := .jsr) ho hb rfl,
    fun ho hb => hset (o := .and) ho hb rfl, fun ho hb => hclear (o := .and) ho hb rfl, hdec .ldr, hdec .str, hdec .rti,
    hdec .not, hdec .ldi, hdec .sti, hdec .jmp, hdec .res, hdec .lea, fun ho v hv => ?traps⟩
  case traps =>
    have htrap : decode w = .ok (decodeTrap v) := hv ▸ hdec .trap ho
    refine ⟨?_, ?_, ?_, ?_, ?_, ?_, fun hout => ?undefined⟩
    case undefined => rw [htrap, decodeTrap_of_undefined (definedVector_eq_false_iff.mpr hout)]
    all_goals
      rintro rfl
      exact htrap

/-- Settles O6: each word by evaluation of the decoder. -/
theorem sampleWordsDecode : Obligations.SampleWordsDecode := by
  unfold Obligations.SampleWordsDecode
  decide

end Sys2Proof
end

section
/-! The memory read port and the keyboard cells (20_memory.md R32, R33, R41). -/

namespace Sys2Proof.Machine

theorem kbsrReadyWord_eq (v : Word) : kbsrReadyWord v = v ||| 0x8000#16 := rfl

/-- A poll that finds a byte leaves the ready word in KBSR. -/
theorem State.kbsrSideEffect_peek_kbsr {s : State} {b : Byte} {rest : List Byte} (h : s.kbd = b :: rest) :
    s.kbsrSideEffect.peek Config.kbsr = kbsrReadyWord (s.peek Config.kbsr) := by
  rw [State.kbsrSideEffect_cons h]
  exact (State.peek_poke_ne _ _ (by decide)).trans (State.peek_poke_same _ _ _)

/-- A poll that finds a byte leaves it in KBDR. -/
theorem State.kbsrSideEffect_peek_kbdr {s : State} {b : Byte} {rest : List Byte} (h : s.kbd = b :: rest) :
    s.kbsrSideEffect.peek Config.kbdr = zext16 b := by
  rw [State.kbsrSideEffect_cons h]
  exact State.peek_poke_same _ _ _

theorem State.kbsrSideEffect_kbd {s : State} {b : Byte} {rest : List Byte} (h : s.kbd = b :: rest) :
    s.kbsrSideEffect.kbd = rest := by
  rw [State.kbsrSideEffect_cons h]

theorem State.memRead_kbsr_nil {s : State} (h : s.kbd = []) :
    s.memRead Config.kbsr = (0x0000#16, s.poke Config.kbsr 0x0000#16) := by
  rw [State.memRead_kbsr, State.kbsrSideEffect_nil h, State.peek_poke_same]

theorem State.memRead_kbsr_cons {s : State} {b : Byte} {rest : List Byte} (h : s.kbd = b :: rest) :
    s.memRead Config.kbsr = (kbsrReadyWord (s.peek Config.kbsr), s.kbsrSideEffect) := by
  rw [State.memRead_kbsr, State.kbsrSideEffect_peek_kbsr h]

/-- Settles O15: the two branches of the read port. -/
theorem readPort : Obligations.ReadPort := by
  unfold Obligations.ReadPort
  exact fun s _ => ⟨s.memRead_of_ne, s.memRead_kbsr⟩

/-- Settles O16: what a poll leaves alone is the effect of every read; what it stores depends on the queue. -/
theorem kbsrPoll : Obligations.KbsrPoll := by
  unfold Obligations.KbsrPoll
  intro s t
  have heffect : ReadEffect s t := s.kbsrSideEffect_effect
  refine ⟨heffect.rest, heffect.bytes, fun hnil => ?unready, fun b rest hcons => ?ready⟩
  case unready =>
    have ht : t = s.poke Config.kbsr 0x0000#16 := State.kbsrSideEffect_nil hnil
    rw [ht]
    exact ⟨State.peek_poke_same _ _ _, State.peek_poke_ne _ _ (by decide), hnil⟩
  case ready =>
    exact ⟨State.kbsrSideEffect_peek_kbsr hcons, State.kbsrSideEffect_peek_kbdr hcons,
      State.kbsrSideEffect_kbd hcons⟩

/-- Settles O18: a read off 0xFE00 returns the stored word; a read of 0xFE00 first replaces it, by zero or by the ready
word of the one stored. -/
theorem readAfterWrite : Obligations.ReadAfterWrite := by
  unfold Obligations.ReadAfterWrite
  intro s a v
  refine ⟨fun ha => ?plain, fun hnil => ?unready, fun hne => ?ready⟩
  case plain =>
    rw [State.memRead_of_ne _ ha]
    exact State.peek_poke_same s a v
  case unready =>
    have hread := State.memRead_kbsr_nil (s := s.memWrite Config.kbsr v) hnil
    exact congrArg Prod.fst hread
  case ready =>
    obtain ⟨b, rest, hcons⟩ := List.exists_cons_of_ne_nil hne
    have hread := State.memRead_kbsr_cons (s := s.memWrite Config.kbsr v) hcons
    rw [State.memWrite_eq, State.peek_poke_same] at hread
    exact congrArg Prod.fst hread

end Sys2Proof.Machine
end

section
/-! The meanings of the operations and of the transfers of control (41_alu.md, 42_control.md, 45_reserved.md). -/

namespace Sys2Proof.Machine

/-! ## ADD, AND, NOT -/

/-- The outcome of an operation that ends with the write of its result. -/
theorem next_writeResult (s : State) (dr : Reg) (v : Word) :
    (Host.Outcome.next (s.writeResult dr v) : Host.Outcome State Fault Refusal) =
      .next ((s.setReg dr v).setCond (condOf v)) := by
  rw [State.writeResult_eq]

theorem State.writeResult_reg (s : State) (dr : Reg) (v : Word) : (s.writeResult dr v).reg dr = v := by
  rw [State.writeResult_eq, State.setCond_reg, State.reg_setReg_same]

theorem State.writeResult_cond (s : State) (dr : Reg) (v : Word) : (s.writeResult dr v).cond = condOf v := by
  rw [State.writeResult_eq, State.setCond_cond]

/-- Settles O29. -/
theorem addResult : Obligations.AddResult := by
  unfold Obligations.AddResult
  exact fun _ _ _ _ _ => ⟨next_writeResult _ _ _, next_writeResult _ _ _⟩

/-- Settles O30. -/
theorem andResult : Obligations.AndResult := by
  unfold Obligations.AndResult
  exact fun _ _ _ _ _ => ⟨next_writeResult _ _ _, next_writeResult _ _ _⟩

/-- Settles O31. -/
theorem notResult : Obligations.NotResult := by
  unfold Obligations.NotResult
  exact fun _ _ _ => ⟨next_writeResult _ _ _, BitVec.toNat_not⟩

/-- Complement and one more is the negative, so adding the word gives zero. -/
theorem not_add_one_add_self (v : Word) : ~~~v + sext 1#5 + v = 0x0000#16 := by
  have hone : sext 1#5 = 1#16 := by decide
  rw [hone, ← BitVec.neg_eq_not_add, BitVec.add_left_neg]

theorem exec_addReg_eq (s : State) (dr sr1 sr2 : Reg) :
    exec (.addReg dr sr1 sr2) s = .next (s.writeResult dr (s.reg sr1 + s.reg sr2)) := rfl

theorem exec_andReg_eq (s : State) (dr sr1 sr2 : Reg) :
    exec (.andReg dr sr1 sr2) s = .next (s.writeResult dr (s.reg sr1 &&& s.reg sr2)) := rfl

/-- Settles O32: `+` and `&&&` commute on words; the ADD reads the complement that the NOT has left in DR. -/
theorem aluLaws : Obligations.AluLaws := by
  unfold Obligations.AluLaws
  intro s dr a b
  refine ⟨?add, ?and, _, _, rfl, rfl, ?negate⟩
  case add => rw [exec_addReg_eq, exec_addReg_eq, BitVec.add_comm]
  case and => rw [exec_andReg_eq, exec_andReg_eq, BitVec.and_comm]
  case negate =>
    rw [State.writeResult_reg, State.writeResult_reg]
    exact not_add_one_add_self (s.reg a)

/-! ## BR, JMP, JSR, JSRR -/

theorem Cond.taken_iff (c : Cond) (n z p : Bool) :
    c.taken n z p = true ↔ (n = true ∧ c = .neg) ∨ (z = true ∧ c = .zro) ∨ (p = true ∧ c = .pos) := by
  cases c <;> simp [Cond.taken]

theorem exec_br_taken {s : State} {n z p : Bool} (off9 : BitVec 9) (h : s.cond.taken n z p = true) :
    exec (.br n z p off9) s = .next (s.setPc (s.pc + sext off9)) :=
  congrArg Host.Outcome.next (if_pos h)

theorem exec_br_not_taken {s : State} {n z p : Bool} (off9 : BitVec 9) (h : ¬s.cond.taken n z p = true) :
    exec (.br n z p off9) s = .next s :=
  congrArg Host.Outcome.next (if_neg h)

/-- Settles O33: the test is the disjunction of `Cond.taken_iff`; with no bit set it is false of each flag, with all
three true of each. -/
theorem branchResult : Obligations.BranchResult := by
  unfold Obligations.BranchResult
  intro s n z p off9
  rw [← Cond.taken_iff]
  refine ⟨exec_br_taken off9, exec_br_not_taken off9, exec_br_not_taken off9 ?never, exec_br_taken off9 ?always⟩
  case never => cases s.cond <;> decide
  case always => cases s.cond <;> decide

/-- Settles O34. -/
theorem jumpResult : Obligations.JumpResult := by
  unfold Obligations.JumpResult
  exact fun _ _ => rfl

/-- Settles O35. -/
theorem jsrResult : Obligations.JsrResult := by
  unfold Obligations.JsrResult
  exact fun _ _ => rfl

theorem exec_jsrr_eq (s : State) (baseR : Reg) :
    exec (.jsrr baseR) s = .next ((s.setReg 7 s.pc).setPc ((s.setReg 7 s.pc).reg baseR)) := rfl

/-- Settles O36: the base register is read after the link, which only R7 sees. -/
theorem jsrrResult : Obligations.JsrrResult := by
  unfold Obligations.JsrrResult
  intro s baseR
  refine ⟨fun hne => ?other, ?linkRegister⟩
  case other => rw [exec_jsrr_eq, State.reg_setReg_other _ _ (Ne.symm hne)]
  case linkRegister =>
    rw [exec_jsrr_eq, State.reg_setReg_same]
    rfl

/-! ## RTI, RES -/

/-- Settles O45. -/
theorem reservedAreNoOps : Obligations.ReservedAreNoOps := by
  unfold Obligations.ReservedAreNoOps
  exact fun _ => ⟨rfl, rfl⟩

end Sys2Proof.Machine
end

section
/-! The loads, and the rest of the stores (43_load.md, 44_store.md). -/

namespace Sys2Proof.Machine

/-! ## LD, LDI, LDR, LEA -/

theorem State.pcRelative_eq {n : Nat} (s : State) (off : BitVec n) : s.pcRelative off = s.pc + sext off := rfl

theorem State.basePlus_eq (s : State) (baseR : Reg) (off6 : BitVec 6) :
    s.basePlus baseR off6 = s.reg baseR + sext off6 := rfl

theorem exec_ld_eq (s : State) (dr : Reg) (off9 : BitVec 9) :
    exec (.ld dr off9) s = .next (s.loadFrom dr (s.pcRelative off9)) := rfl

theorem exec_ldr_eq (s : State) (dr baseR : Reg) (off6 : BitVec 6) :
    exec (.ldr dr baseR off6) s = .next (s.loadFrom dr (s.basePlus baseR off6)) := rfl

theorem exec_ldi_eq (s : State) (dr : Reg) (off9 : BitVec 9) :
    exec (.ldi dr off9) s = .next ((s.indirect off9).2.loadFrom dr (s.indirect off9).1) := rfl

theorem State.loadFrom_of_ne (s : State) (dr : Reg) {ea : Word} (h : ea ≠ Config.kbsr) :
    s.loadFrom dr ea = s.writeResult dr (s.peek ea) := by
  rw [State.loadFrom, State.memRead_of_ne s h]

/-- An LDI whose pointer cell is not KBSR is a load from the word stored there. -/
theorem exec_ldi_of_ne {s : State} (dr : Reg) {off9 : BitVec 9} (h : s.pcRelative off9 ≠ Config.kbsr) :
    exec (.ldi dr off9) s = .next (s.loadFrom dr (s.peek (s.pcRelative off9))) := by
  rw [exec_ldi_eq, State.indirect, State.memRead_of_ne s h]

/-- Settles O37: both end in `loadFrom`, which off 0xFE00 reads the stored word and changes nothing. -/
theorem loadResult : Obligations.LoadResult := by
  unfold Obligations.LoadResult
  intro s dr baseR off9 off6 loaded
  refine ⟨?ld, ?ldr, fun hne => ?ldPlain, fun hne => ?ldrPlain⟩
  case ld => rw [exec_ld_eq, State.loadFrom_eq]; rfl
  case ldr => rw [exec_ldr_eq, State.loadFrom_eq]; rfl
  case ldPlain => rw [exec_ld_eq, State.pcRelative_eq, State.loadFrom_of_ne s dr hne, State.writeResult_eq]
  case ldrPlain => rw [exec_ldr_eq, State.basePlus_eq, State.loadFrom_of_ne s dr hne, State.writeResult_eq]

/-- Settles O38. -/
theorem loadIndirectResult : Obligations.LoadIndirectResult := by
  unfold Obligations.LoadIndirectResult
  intro s dr off9 p m
  rw [exec_ldi_eq, State.loadFrom_eq]
  rfl

/-- Settles O39: neither cell is KBSR, so both reads return what was stored, the pointer because the payload went to
another cell. -/
theorem ldiRoundTrip : Obligations.LdiRoundTrip := by
  unfold Obligations.LdiRoundTrip
  intro s dr off9 p x hA hp hne
  have hexec : exec (.ldi dr off9) ((s.poke (s.pc + sext off9) p).poke p x) = _ := exec_ldi_of_ne dr hA
  rw [State.pcRelative_eq, State.poke_pc, State.poke_pc, State.peek_poke_ne _ _ (Ne.symm hne), State.peek_poke_same,
    State.loadFrom_of_ne _ dr hp, State.peek_poke_same] at hexec
  exact ⟨_, hexec, State.writeResult_reg _ _ _, State.writeResult_cond _ _ _⟩

theorem condOf_zero : condOf 0x0000#16 = .zro := by decide

theorem condOf_kbsrReadyWord (v : Word) : condOf (kbsrReadyWord v) = .neg := by
  have hbit : (kbsrReadyWord v).getLsbD 15 = true := by simp [kbsrReadyWord_eq]
  rw [condOf, if_pos hbit]

/-- Settles O40: the load is a read of KBSR, whose word is zero or has bit 15 set. -/
theorem ldiPollsKeyboard : Obligations.LdiPollsKeyboard := by
  unfold Obligations.LdiPollsKeyboard
  intro s dr off9 hA hpointer
  have hexec : exec (.ldi dr off9) s = .next (s.loadFrom dr Config.kbsr) := by
    rw [exec_ldi_of_ne dr hA, State.pcRelative_eq, hpointer]
    rfl
  refine ⟨fun hnil => ⟨_, hexec, ?unready⟩, fun b rest hcons => ⟨_, hexec, ?ready⟩⟩
  case unready =>
    rw [State.loadFrom_eq, State.memRead_kbsr_nil hnil]
    rw [State.setCond_cond, State.setCond_peek, State.setReg_peek]
    exact ⟨State.reg_setReg_same _ _ _, condOf_zero, State.peek_poke_same s _ _, hnil⟩
  case ready =>
    rw [State.loadFrom_eq, State.memRead_kbsr_cons hcons]
    exact ⟨condOf_kbsrReadyWord _, (State.reg_setReg_same _ _ _).trans (State.kbsrSideEffect_peek_kbsr hcons).symm,
      State.kbsrSideEffect_peek_kbdr hcons, State.kbsrSideEffect_kbd hcons⟩

/-- Settles O41. -/
theorem leaResult : Obligations.LeaResult := by
  unfold Obligations.LeaResult
  exact fun _ _ _ => next_writeResult _ _ _

/-! ## ST, STI, STR -/

/-- Settles O42: each is one store and nothing else. -/
theorem storeResult : Obligations.StoreResult := by
  unfold Obligations.StoreResult
  intro s sr baseR off9 off6
  exact ⟨⟨_, exec_st_eq s sr off9, State.peek_poke_same _ _ _, rfl, fun _ => State.peekByte_poke_ne s _ _⟩,
    ⟨_, exec_str_eq s sr baseR off6, State.peek_poke_same _ _ _, rfl, fun _ => State.peekByte_poke_ne s _ _⟩, rfl, rfl⟩

/-- Settles O43: one store after the effect of the pointer read. -/
theorem storeIndirectResult : Obligations.StoreIndirectResult := by
  unfold Obligations.StoreIndirectResult
  intro s sr off9 p
  have hread : ReadEffect s p.2 := s.memRead_effect _
  refine ⟨p.2.poke p.1 (s.reg sr), exec_sti_eq s sr off9, State.peek_poke_same _ _ _, ?others,
    fun _ => State.peekByte_poke_ne _ _ _, s.memRead_of_ne⟩
  rw [State.poke, hread.rest]

end Sys2Proof.Machine
end

section
/-! The trap routines but for the strings (46_trap.md R136, R137, R139, R141, R142). -/

namespace Sys2Proof.Machine

/-! ## GETC and IN -/

theorem exec_trapGetc_eq (s : State) : exec .trapGetc s = .next (s.trapEntry.setWait .getc).finishGetc := rfl

theorem exec_trapIn_eq (s : State) :
    exec .trapIn s = .next ((s.trapEntry.emitAll inPrompt).setWait .inp).finishIn := rfl

/-- A byte in R0, with the flag that the routines set for it. -/
theorem State.writeResult_zext16 (s : State) (b : Byte) :
    s.writeResult 0 (zext16 b) = (s.setReg 0 (b.setWidth 16)).setCond (if b = 0x00#8 then .zro else .pos) := by
  rw [State.writeResult_eq, condOf_zext16]
  rfl

/-- Settles O47: GETC is its trap entry and then a held GETC that finds a byte. -/
theorem getcResult : Obligations.GetcResult := by
  unfold Obligations.GetcResult
  intro s b rest hcons
  rw [exec_trapGetc_eq, State.finishGetc_cons (s := s.trapEntry.setWait .getc) hcons, State.writeResult_zext16]
  rfl

/-- Settles O48: IN is its trap entry, its prompt, and then a held IN that finds a byte. -/
theorem inResult : Obligations.InResult := by
  unfold Obligations.InResult
  intro s b rest hcons
  rw [exec_trapIn_eq, State.finishIn_cons (s := (s.trapEntry.emitAll inPrompt).setWait .inp) hcons,
    State.writeResult_zext16]
  rfl

theorem State.finishGetc_nil {s : State} (h : s.kbd = []) : s.finishGetc = s := State.finishRead_nil _ h

theorem State.finishIn_nil {s : State} (h : s.kbd = []) : s.finishIn = s := State.finishRead_nil _ h

/-- Settles O49: with no byte pending the rest of either routine changes nothing. -/
theorem getcAndInHold : Obligations.GetcAndInHold := by
  unfold Obligations.GetcAndInHold
  intro s hnil
  refine ⟨?getc, ?inp⟩
  case getc =>
    rw [exec_trapGetc_eq, State.finishGetc_nil (s := s.trapEntry.setWait .getc) hnil]
    rfl
  case inp =>
    rw [exec_trapIn_eq, State.finishIn_nil (s := (s.trapEntry.emitAll inPrompt).setWait .inp) hnil]
    rfl

theorem step_of_hold_getc {s : State} (hrun : s.run = .running) (hwait : s.wait = .getc) :
    step s = .next s.deliver.finishGetc := by
  simp [step, cycle, hrun, hwait]

theorem step_of_hold_inp {s : State} (hrun : s.run = .running) (hwait : s.wait = .inp) :
    step s = .next s.deliver.finishIn := by
  simp [step, cycle, hrun, hwait]

/-- Settles O50: the step of a hold is the rest of the routine on the state in which the bytes due have arrived. -/
theorem heldReadCompletes : Obligations.HeldReadCompletes := by
  unfold Obligations.HeldReadCompletes
  intro s b rest hrun hcons
  refine ⟨fun hwait => ?getc, fun hwait => ?inp⟩
  case getc =>
    rw [step_of_hold_getc hrun hwait, State.finishGetc_cons hcons, State.writeResult_zext16]
    rfl
  case inp =>
    rw [step_of_hold_inp hrun hwait, State.finishIn_cons hcons, State.writeResult_zext16, ← State.deliver_out s]
    rfl

/-! ## OUT, HALT, undefined vectors -/

theorem exec_trapOut_eq (s : State) :
    exec .trapOut s = .next (s.trapEntry.emit ((s.trapEntry.reg 0).extractLsb' 0 8)) := rfl

/-- The trap entry writes R7, so the string address or the character in R0 is the one before it. -/
theorem State.trapEntry_reg_zero (s : State) : s.trapEntry.reg 0 = s.reg 0 :=
  State.reg_setReg_other s s.pc (by decide)

theorem extractLsb'_low_byte (v : Word) : v.extractLsb' 0 8 = BitVec.ofNat 8 (v.toNat % 256) := by
  apply BitVec.eq_of_toNat_eq
  simp

/-- Settles O51. -/
theorem outResult : Obligations.OutResult := by
  unfold Obligations.OutResult
  intro s
  rw [exec_trapOut_eq, State.trapEntry_reg_zero, extractLsb'_low_byte]
  rfl

/-- Settles O56. -/
theorem haltResult : Obligations.HaltResult := by
  unfold Obligations.HaltResult
  exact fun _ => rfl

/-- Settles O57. -/
theorem undefinedVectorResult : Obligations.UndefinedVectorResult := by
  unfold Obligations.UndefinedVectorResult
  exact fun _ _ => rfl

end Sys2Proof.Machine
end

section
/-! Updates that the memory ports do not see: a read, a poll and a string walk commute with them. -/

namespace Sys2Proof.Machine

/-- An update of the state that touches neither memory nor the keyboard queue and does not depend on them. -/
structure PortBlind (f : State → State) : Prop where
  peek : ∀ s a, (f s).peek a = s.peek a
  kbd : ∀ s, (f s).kbd = s.kbd
  poke : ∀ s a v, (f s).poke a v = f (s.poke a v)
  setKbd : ∀ (s : State) (q : List Byte), { f s with kbd := q } = f { s with kbd := q }

theorem portBlind_setReg (i : Reg) (v : Word) : PortBlind (State.setReg · i v) :=
  ⟨fun _ _ => rfl, fun _ => rfl, fun _ _ _ => rfl, fun _ _ => rfl⟩

theorem portBlind_setCond (c : Cond) : PortBlind (State.setCond · c) :=
  ⟨fun _ _ => rfl, fun _ => rfl, fun _ _ _ => rfl, fun _ _ => rfl⟩

theorem portBlind_emitAll (bs : List Byte) : PortBlind (State.emitAll · bs) :=
  ⟨fun _ _ => rfl, fun _ => rfl, fun _ _ _ => rfl, fun _ _ => rfl⟩

variable {f : State → State}

theorem PortBlind.kbsrSideEffect (hf : PortBlind f) (s : State) : (f s).kbsrSideEffect = f s.kbsrSideEffect := by
  rcases hk : s.kbd with _ | ⟨b, rest⟩
  · rw [State.kbsrSideEffect_nil hk, State.kbsrSideEffect_nil ((hf.kbd s).trans hk), hf.poke]
  · rw [State.kbsrSideEffect_cons hk, State.kbsrSideEffect_cons ((hf.kbd s).trans hk), hf.peek, hf.poke, hf.poke]
    exact hf.setKbd _ rest

theorem PortBlind.memRead (hf : PortBlind f) (s : State) (a : Word) :
    (f s).memRead a = ((s.memRead a).1, f (s.memRead a).2) := by
  by_cases ha : a = Config.kbsr
  · rw [ha, State.memRead_kbsr, State.memRead_kbsr, hf.kbsrSideEffect, hf.peek]
  · rw [State.memRead_of_ne _ ha, State.memRead_of_ne _ ha, hf.peek]

theorem PortBlind.walk (hf : PortBlind f) (hemit : ∀ s bs, (f s).emitAll bs = f (s.emitAll bs))
    (bytesOf : Word → List Byte) (fuel : Nat) (a : Word) (s : State) :
    State.walk bytesOf fuel a (f s) = (State.walk bytesOf fuel a s).map f := by
  induction fuel generalizing a s with
  | zero => rfl
  | succ n ih =>
    rw [State.walk, State.walk, hf.memRead]
    split_ifs
    · rfl
    · rw [hemit, ih]

end Sys2Proof.Machine
end

section
/-! PUTS and PUTSP (46_trap.md R138, R140, R145). -/

namespace Sys2Proof.Machine

/-! ## The addresses of a walk -/

/-- The addresses of a walk repeat with period 65536. -/
theorem add_ofNat_eq_iff (a : Word) (k m : Nat) :
    a + BitVec.ofNat 16 k = a + BitVec.ofNat 16 m ↔ k % 65536 = m % 65536 := by
  rw [BitVec.add_right_inj, ← BitVec.toNat_inj, BitVec.toNat_ofNat, BitVec.toNat_ofNat]

theorem add_ofNat_add (a : Word) (k m : Nat) :
    a + BitVec.ofNat 16 k + BitVec.ofNat 16 m = a + BitVec.ofNat 16 (k + m) := by
  rw [BitVec.add_assoc, BitVec.ofNat_add]

theorem exists_add_ofNat_eq (a c : Word) : ∃ d, d < 65536 ∧ a + BitVec.ofNat 16 d = c :=
  ⟨(c - a).toNat, (c - a).isLt, by rw [BitVec.ofNat_toNat, BitVec.setWidth_eq, BitVec.add_comm, BitVec.sub_add_cancel]⟩

theorem add_ofNat_ne_of_lt {a c : Word} {k m : Nat} (hm : m < 65536) (h : a + BitVec.ofNat 16 m = c) (hk : k < m) :
    a + BitVec.ofNat 16 k ≠ c := by
  rw [← h, Ne, add_ofNat_eq_iff]
  omega

/-! ## Walks that end at a zero word -/

/-- The bytes of the `n` words that `word` gives. -/
def stringBytes (bytesOf : Word → List Byte) (word : Nat → Word) (n : Nat) : List Byte :=
  (List.range n).flatMap fun k => bytesOf (word k)

/-- The word of index `k` of a string at `a`. -/
def State.stringWord (s : State) (a : Word) (k : Nat) : Word := s.peek (a + BitVec.ofNat 16 k)

theorem State.walk_stringWords (bytesOf : Word → List Byte) {fuel n : Nat} {a : Word} {s : State} (hn : n ≤ fuel)
    (hk : ∀ k, k < n → a + BitVec.ofNat 16 k ≠ Config.kbsr) (hz : ∀ k, k < n → s.stringWord a k ≠ 0x0000#16) :
    State.walk bytesOf fuel a s = State.walk bytesOf (fuel - n) (a + BitVec.ofNat 16 n)
      (s.emitAll (stringBytes bytesOf (s.stringWord a) n)) := by
  have hwalk := State.walk_words bytesOf (fuel - n) n hk hz
  rwa [Nat.sub_add_cancel hn] at hwalk

/-- The walk over the non-zero words before 0xFE00. -/
theorem State.walk_to_kbsr (bytesOf : Word → List Byte) {fuel m : Nat} {a : Word} {s : State} (hfuel : m < fuel)
    (hm : m < 65536) (hkbsr : a + BitVec.ofNat 16 m = Config.kbsr)
    (hz : ∀ k, k < m → s.stringWord a k ≠ 0x0000#16) :
    State.walk bytesOf fuel a s = State.walk bytesOf (fuel - (m + 1) + 1) Config.kbsr
      (s.emitAll (stringBytes bytesOf (s.stringWord a) m)) := by
  rw [State.walk_stringWords bytesOf (Nat.le_of_lt hfuel) (fun k => add_ofNat_ne_of_lt hm hkbsr) hz, hkbsr,
    show fuel - m = fuel - (m + 1) + 1 by omega]

/-- A walk that misses 0xFE00 and comes to a zero word emits the words before the first one. -/
theorem State.walk_of_zero (bytesOf : Word → List Byte) {fuel n : Nat} {a : Word} {s : State} (hn : n < fuel)
    (hk : ∀ k, k ≤ n → a + BitVec.ofNat 16 k ≠ Config.kbsr) (hz : ∀ k, k < n → s.stringWord a k ≠ 0x0000#16)
    (h : s.stringWord a n = 0x0000#16) :
    State.walk bytesOf fuel a s = some (s.emitAll (stringBytes bytesOf (s.stringWord a) n)) := by
  rw [State.walk_stringWords bytesOf (Nat.le_of_lt hn) (fun k hlt => hk k (Nat.le_of_lt hlt)) hz,
    show fuel - n = fuel - n - 1 + 1 by omega]
  exact State.walk_zero bytesOf _ (hk n (Nat.le_refl n)) h

/-- A walk whose words have a zero before 0xFE00 ends by emitting bytes. -/
theorem State.exists_walk_of_zero (bytesOf : Word → List Byte) {fuel n : Nat} {a : Word} {s : State} (hn : n < fuel)
    (hk : ∀ k, k ≤ n → a + BitVec.ofNat 16 k ≠ Config.kbsr) (h : s.stringWord a n = 0x0000#16) :
    ∃ bs, State.walk bytesOf fuel a s = some (s.emitAll bs) := by
  have hzero : ∃ m, s.stringWord a m = 0x0000#16 := ⟨n, h⟩
  have hle : Nat.find hzero ≤ n := Nat.find_min' hzero h
  exact ⟨_, State.walk_of_zero bytesOf (Nat.lt_of_le_of_lt hle hn) (fun k hkm => hk k (hkm.trans hle))
    (fun k hkm => Nat.find_min hzero hkm) (Nat.find_spec hzero)⟩

/-! ## Every walk ends -/

/-- Within 65536 reads a walk ends or comes to 0xFE00, with nothing done but bytes emitted. -/
theorem State.walk_ends_or_reaches_kbsr (bytesOf : Word → List Byte) {fuel : Nat} (a : Word) (s : State)
    (h : Config.memWords ≤ fuel) :
    (∃ t, State.walk bytesOf fuel a s = some t) ∨ ∃ (left : Nat) (bs : List Byte), fuel ≤ left + Config.memWords ∧
      State.walk bytesOf fuel a s = State.walk bytesOf (left + 1) Config.kbsr (s.emitAll bs) := by
  rw [Config.memWords] at h ⊢
  obtain ⟨d, hd, hkbsr⟩ := exists_add_ofNat_eq a Config.kbsr
  have hbefore : ∀ k, k < d → a + BitVec.ofNat 16 k ≠ Config.kbsr := fun k => add_ofNat_ne_of_lt hd hkbsr
  by_cases hz : ∃ n, n < d ∧ s.stringWord a n = 0x0000#16
  · obtain ⟨n, hn, hzero⟩ := hz
    obtain ⟨bs, hwalk⟩ := State.exists_walk_of_zero bytesOf (fuel := fuel) (by omega)
      (fun k hk => hbefore k (by omega)) hzero
    exact .inl ⟨_, hwalk⟩
  · have hwalk := State.walk_to_kbsr bytesOf (fuel := fuel) (by omega) hd hkbsr
      (fun k hk hzero => hz ⟨k, hk, hzero⟩)
    exact .inr ⟨_, _, by omega, hwalk⟩

/-- Every walk ends: at 0xFE00 it ends or takes one of the pending bytes, and none arrives. -/
theorem State.walk_ends (bytesOf : Word → List Byte) {fuel : Nat} (a : Word) {s : State}
    (h : Config.memWords * (s.kbd.length + 1) ≤ fuel) : ∃ t, State.walk bytesOf fuel a s = some t := by
  induction hq : s.kbd generalizing fuel a s with
  | nil =>
    rcases State.walk_ends_or_reaches_kbsr bytesOf (fuel := fuel) a s (by rwa [hq] at h) with
      hend | ⟨left, bs, -, hwalk⟩
    · exact hend
    · exact ⟨_, hwalk.trans (State.walk_kbsr_nil bytesOf left hq)⟩
  | cons b rest ih =>
    rw [hq, List.length_cons, Nat.mul_succ] at h
    rcases State.walk_ends_or_reaches_kbsr bytesOf (fuel := fuel) a s (by omega) with
      hend | ⟨left, bs, hleft, hwalk⟩
    · exact hend
    · rw [hwalk, State.walk_kbsr_cons bytesOf left (s := s.emitAll bs) hq]
      have hrest : (s.emitAll bs).kbsrSideEffect.kbd = rest := State.kbsrSideEffect_kbd hq
      exact ih _ (by rw [State.emitAll_kbd, hrest]; omega) hrest

/-! ## The two routines -/

/-- The string routines with the bytes they emit for a word. -/
inductive StringRoutine : Instr → (Word → List Byte) → Prop where
  | puts : StringRoutine .trapPuts putsBytes
  | putsp : StringRoutine .trapPutsp putspBytes

theorem StringRoutine.exec_eq {i : Instr} {bytesOf : Word → List Byte} (h : StringRoutine i bytesOf) (s : State) :
    exec i s = s.trapEntry.putString bytesOf := by
  cases h <;> rfl

/-- A string routine answers what its walk from R0 ends in. -/
theorem StringRoutine.exec_eq_next_iff {i : Instr} {bytesOf : Word → List Byte} (h : StringRoutine i bytesOf)
    {s t : State} :
    exec i s = .next t ↔ State.walk bytesOf s.walkFuel (s.reg 0) s.trapEntry = some t := by
  rw [h.exec_eq, ← State.trapEntry_reg_zero s]
  refine ⟨State.putString_next, fun hwalk => ?_⟩
  rw [State.putString, show s.trapEntry.walkFuel = s.walkFuel from rfl, hwalk]

/-- What a finished string routine has done: the trap entry, and then the effect of its walk. -/
theorem StringRoutine.effect {i : Instr} {bytesOf : Word → List Byte} (h : StringRoutine i bytesOf) {s t : State}
    (hexec : exec i s = .next t) : WalkEffect s.trapEntry t :=
  State.walk_effect (h.exec_eq_next_iff.mp hexec)

theorem StringRoutine.exec_ends {i : Instr} {bytesOf : Word → List Byte} (h : StringRoutine i bytesOf) (s : State) :
    ∃ t, exec i s = .next t := by
  obtain ⟨t, hwalk⟩ := State.walk_ends bytesOf (s.reg 0) (Nat.le_refl s.trapEntry.walkFuel)
  exact ⟨t, h.exec_eq_next_iff.mpr hwalk⟩

theorem stringRoutine_of_eq {i : Instr} (h : i = .trapPuts ∨ i = .trapPutsp) : ∃ bytesOf, StringRoutine i bytesOf := by
  rcases h with rfl | rfl
  · exact ⟨_, .puts⟩
  · exact ⟨_, .putsp⟩

/-- Settles O54: the fuel covers every walk (`State.walk_ends`), and the rest is the effect of a walk. -/
theorem stringRoutinesAlwaysEnd : Obligations.StringRoutinesAlwaysEnd := by
  unfold Obligations.StringRoutinesAlwaysEnd
  intro i s hi
  obtain ⟨bytesOf, hroutine⟩ := stringRoutine_of_eq hi
  obtain ⟨t, hexec⟩ := hroutine.exec_ends s
  have heffect : WalkEffect s.trapEntry t := hroutine.effect hexec
  exact ⟨t, hexec, heffect.rest, heffect.bytes⟩

theorem State.memWords_le_walkFuel (s : State) : Config.memWords ≤ s.walkFuel :=
  Nat.le_mul_of_pos_right _ (Nat.succ_pos _)

/-- A string that misses 0xFE00: its bytes up to the first zero word, and R7. -/
theorem StringRoutine.exec_of_zero {i : Instr} {bytesOf : Word → List Byte} (h : StringRoutine i bytesOf) {s : State}
    {n : Nat} (hn : n < 65536) (hk : ∀ k, k ≤ n → s.reg 0 + BitVec.ofNat 16 k ≠ Config.kbsr)
    (hz : ∀ k, k < n → s.stringWord (s.reg 0) k ≠ 0x0000#16) (hzero : s.stringWord (s.reg 0) n = 0x0000#16) :
    exec i s = .next (s.trapEntry.emitAll (stringBytes bytesOf (s.stringWord (s.reg 0)) n)) :=
  h.exec_eq_next_iff.mpr (State.walk_of_zero bytesOf (Nat.lt_of_lt_of_le hn s.memWords_le_walkFuel) hk hz hzero)

theorem stringBytes_putsBytes (word : Nat → Word) (n : Nat) :
    stringBytes putsBytes word n = (List.range n).map fun k => (word k).extractLsb' 0 8 :=
  List.map_eq_flatMap.symm

/-- Settles O52. -/
theorem putsResult : Obligations.PutsResult := by
  unfold Obligations.PutsResult
  intro s n hn hk hz hzero
  rw [StringRoutine.puts.exec_of_zero hn hk hz hzero, stringBytes_putsBytes, State.emitAll, List.map_map]
  rfl

/-- Settles O53. -/
theorem putspResult : Obligations.PutspResult := by
  unfold Obligations.PutspResult
  intro s n hn hk hz hzero
  exact StringRoutine.putsp.exec_of_zero hn hk hz hzero

/-! ## A walk that comes to 0xFE00 -/

theorem StringRoutine.exec_stops_at_kbsr {i : Instr} {bytesOf : Word → List Byte} (h : StringRoutine i bytesOf)
    {s : State} {m : Nat} (hnil : s.kbd = []) (hm : m < 65536) (hkbsr : s.reg 0 + BitVec.ofNat 16 m = Config.kbsr)
    (hz : ∀ k, k < m → s.stringWord (s.reg 0) k ≠ 0x0000#16) :
    exec i s = .next
      ((s.trapEntry.emitAll (stringBytes bytesOf (s.stringWord (s.reg 0)) m)).poke Config.kbsr 0x0000#16) := by
  have hfuel : s.walkFuel = 65536 := by rw [State.walkFuel, hnil]; rfl
  rw [h.exec_eq_next_iff, State.walk_to_kbsr bytesOf (s := s.trapEntry) (by omega) hm hkbsr hz]
  exact State.walk_kbsr_nil bytesOf _ hnil


/-- The words of the string at R0 that comes to 0xFE00 at index `m`: as they were before it, as polled from it on. -/
def State.crossedWord (s polled : State) (m k : Nat) : Word :=
  if k < m then s.stringWord (s.reg 0) k else polled.stringWord (s.reg 0) k

theorem stringBytes_congr (bytesOf : Word → List Byte) {v w : Nat → Word} {n : Nat} (h : ∀ k, k < n → v k = w k) :
    stringBytes bytesOf v n = stringBytes bytesOf w n :=
  List.flatMap_congr fun k hk => by rw [h k (List.mem_range.mp hk)]

theorem stringBytes_add (bytesOf : Word → List Byte) (w : Nat → Word) (m n : Nat) :
    stringBytes bytesOf w (m + n) = stringBytes bytesOf w m ++ stringBytes bytesOf (fun k => w (m + k)) n := by
  simp only [stringBytes, List.range_add, List.flatMap_append, List.flatMap_map]

theorem stringBytes_succ (bytesOf : Word → List Byte) (w : Nat → Word) (n : Nat) :
    stringBytes bytesOf w (n + 1) = stringBytes bytesOf w n ++ bytesOf (w n) := by
  simp only [stringBytes, List.range_succ, List.flatMap_append, List.flatMap_singleton]

theorem State.setReg_setReg_same (s : State) (i : Reg) (v w : Word) : (s.setReg i v).setReg i w = s.setReg i w := by
  simp [State.setReg]

theorem State.setReg_setReg_comm (s : State) {i j : Reg} (v w : Word) (h : i ≠ j) :
    (s.setReg i v).setReg j w = (s.setReg j w).setReg i v := by
  have hval : i.val ≠ j.val := fun he => h (Fin.ext he)
  simp only [State.setReg, Vector.set_comm _ _ hval]

theorem State.setReg_reg_self (s : State) (i : Reg) : s.setReg i (s.reg i) = s := by
  simp [State.setReg, State.reg]

/-- A walk that takes one of the pending bytes has fuel for 65536 reads and for the walk that is left. -/
theorem walkFuel_of_pending {s : State} {b : Byte} {rest : List Byte} (h : s.kbd = b :: rest) :
    s.walkFuel = 65536 * (rest.length + 1) + 65536 := by
  rw [State.walkFuel, h, List.length_cons, Config.memWords, Nat.mul_succ]

section crossing

variable {i : Instr} {bytesOf : Word → List Byte} {s polled : State} {m : Nat} {b : Byte} {rest : List Byte}
  (h : StringRoutine i bytesOf) (hpolled : s.kbsrSideEffect = polled) (hcons : s.kbd = b :: rest) (hm : m < 65536)
  (hkbsr : s.reg 0 + BitVec.ofNat 16 m = Config.kbsr) (hz : ∀ k, k < m → s.stringWord (s.reg 0) k ≠ 0x0000#16)

include hpolled hcons hm hkbsr hz

/-- The walk up to its poll at index `m`: it goes on at 0xFE01 on the polled state, the bytes up to there emitted. -/
theorem State.walk_across {fuel : Nat} (hfuel : m < fuel) :
    State.walk bytesOf fuel (s.reg 0) s.trapEntry = State.walk bytesOf (fuel - (m + 1)) (Config.kbsr + 1)
      ((polled.setReg 7 s.pc).emitAll (stringBytes bytesOf (s.crossedWord polled m) (m + 1))) := by
  have hready : s.crossedWord polled m m = kbsrReadyWord (s.peek Config.kbsr) := by
    rw [State.crossedWord, if_neg (Nat.lt_irrefl m), State.stringWord, hkbsr, ← hpolled,
      State.kbsrSideEffect_peek_kbsr hcons]
  have hwords : stringBytes bytesOf (s.crossedWord polled m) m = stringBytes bytesOf (s.stringWord (s.reg 0)) m :=
    stringBytes_congr bytesOf fun k hk => if_pos hk
  rw [stringBytes_succ, hready, hwords, ← State.emitAll_emitAll,
    State.walk_to_kbsr bytesOf (s := s.trapEntry) hfuel hm hkbsr hz,
    State.walk_kbsr_cons bytesOf _ (s := s.trapEntry.emitAll _) hcons,
    (portBlind_emitAll _).kbsrSideEffect, State.trapEntry_eq, (portBlind_setReg 7 s.pc).kbsrSideEffect, hpolled]
  rfl

include h

/-- A string that ends after one poll, before it comes to 0xFE00 again. -/
theorem StringRoutine.exec_across_zero {n : Nat} (hmn : m < n) (hn : n < m + 65536)
    (hz' : ∀ k, m < k → k < n → polled.stringWord (s.reg 0) k ≠ 0x0000#16)
    (hzero : polled.stringWord (s.reg 0) n = 0x0000#16) :
    exec i s = .next ((polled.setReg 7 s.pc).emitAll (stringBytes bytesOf (s.crossedWord polled m) n)) := by
  obtain ⟨j, rfl⟩ : ∃ j, n = m + 1 + j := ⟨n - (m + 1), by omega⟩
  have hfuel := walkFuel_of_pending hcons
  have haddr : ∀ k, Config.kbsr + 1 + BitVec.ofNat 16 k = s.reg 0 + BitVec.ofNat 16 (m + 1 + k) := fun k => by
    rw [← hkbsr, show (1 : Word) = BitVec.ofNat 16 1 from rfl, add_ofNat_add, add_ofNat_add,
      ← Nat.add_assoc]
  have hword : ∀ k, polled.stringWord (Config.kbsr + 1) k = polled.stringWord (s.reg 0) (m + 1 + k) := fun k => by
    rw [State.stringWord, haddr, State.stringWord]
  have hbytes : stringBytes bytesOf (fun k => s.crossedWord polled m (m + 1 + k)) j =
      stringBytes bytesOf (polled.stringWord (Config.kbsr + 1)) j :=
    stringBytes_congr bytesOf fun k _ => by rw [hword, State.crossedWord, if_neg (by omega)]
  rw [h.exec_eq_next_iff, State.walk_across hpolled hcons hm hkbsr hz (by omega),
    stringBytes_add bytesOf _ (m + 1), hbytes, ← State.emitAll_emitAll]
  refine State.walk_of_zero bytesOf (by omega) (fun k hk => ?_) (fun k hk => ?_) ((hword j).trans hzero)
  · rw [haddr, ← hkbsr, Ne, add_ofNat_eq_iff]
    omega
  · exact fun he => hz' (m + 1 + k) (by omega) (by omega) ((hword k).symm.trans he)

/-- Whatever the string does after its poll, it ends as the routine started at 0xFE01 on the polled state ends: there R0
is another, and nothing else differs. -/
theorem StringRoutine.exec_across {t : State}
    (hexec : exec i ((polled.setReg 0 0xFE01#16).emitAll (stringBytes bytesOf (s.crossedWord polled m) (m + 1))) =
      .next t) :
    exec i s = .next (t.setReg 0 (s.reg 0)) := by
  have hpc : polled.pc = s.pc := by rw [← hpolled, s.kbsrSideEffect_effect.rest]
  have hreg : polled.reg 0 = s.reg 0 := by rw [← hpolled, s.kbsrSideEffect_effect.rest]; rfl
  have hkbd : polled.kbd = rest := by rw [← hpolled, State.kbsrSideEffect_kbd hcons]
  have hfuel := walkFuel_of_pending hcons
  have hleft : polled.walkFuel = 65536 * (rest.length + 1) := by rw [State.walkFuel, hkbd, Config.memWords]
  rw [h.exec_eq_next_iff] at hexec ⊢
  have hstart : ((polled.setReg 0 0xFE01#16).emitAll (stringBytes bytesOf (s.crossedWord polled m) (m + 1))).trapEntry =
      ((polled.setReg 7 s.pc).emitAll (stringBytes bytesOf (s.crossedWord polled m) (m + 1))).setReg 0 0xFE01#16 := by
    rw [← hpc]
    exact congrArg (State.emitAll · _) (State.setReg_setReg_comm polled _ _ (by decide))
  have haddr : ((polled.setReg 0 0xFE01#16).emitAll (stringBytes bytesOf (s.crossedWord polled m) (m + 1))).reg 0 =
      Config.kbsr + 1 := State.reg_setReg_same polled 0 _
  rw [hstart, haddr, (portBlind_setReg 0 0xFE01#16).walk (fun _ _ => rfl), Option.map_eq_some_iff] at hexec
  obtain ⟨u, hu, rfl⟩ := hexec
  have hu0 : u.reg 0 = s.reg 0 := by
    rw [(State.walk_effect hu).rest, ← hreg]
    exact State.reg_setReg_other polled s.pc (by decide)
  rw [State.setReg_setReg_same, ← hu0, State.setReg_reg_self, hu0,
    State.walk_across hpolled hcons hm hkbsr hz (by omega)]
  exact State.walk_mono hu (hleft.le.trans (by omega))

end crossing

/-- Settles O55: the walk comes to 0xFE00 over non-zero words; there it stops or goes on over the polled memory, to a
zero word or, in any case, as the routine started at 0xFE01 does. -/
theorem stringRoutinesAtKbsr : Obligations.StringRoutinesAtKbsr := by
  unfold Obligations.StringRoutinesAtKbsr
  intro i bytesOf s m hi addr hm hkbsr hz
  have hroutine : StringRoutine i bytesOf := by
    rcases hi with ⟨rfl, rfl⟩ | ⟨rfl, rfl⟩
    · exact .puts
    · exact .putsp
  refine ⟨fun hnil => ?unready, fun b rest hcons => ?ready⟩
  case unready => exact hroutine.exec_stops_at_kbsr hnil hm hkbsr hz
  case ready =>
    intro polled outTo
    have hpolled : s.kbsrSideEffect = polled := State.kbsrSideEffect_cons hcons
    exact ⟨fun n => hroutine.exec_across_zero hpolled hcons hm hkbsr hz,
      fun t => hroutine.exec_across hpolled hcons hm hkbsr hz⟩

end Sys2Proof.Machine
end

section
/-! What an instruction can do, said once, and the frames over all instructions that follow from it. -/

namespace Sys2Proof.Machine

/-! ## The inversion of `exec` -/

/-- The instructions that wait for a keyboard byte (46_trap.md R136, R139). -/
def readsKeyboard (i : Instr) : Prop := i = .trapGetc ∨ i = .trapIn

/-- What an instruction can do to a state. -/
inductive ExecEffect (s : State) : Instr → State → Prop where
  /-- ADD, AND, NOT, LEA and the loads: a result, after at most the effect of reads. -/
  | result {i : Instr} {dr : Reg} {r : State} (v : Word) (hdest : flagDest i = some dr) (hlink : links i = false)
      (hread : ReadEffect s r) (hplain : readsMemory i = false ∨ missesKbsr s i → r = s) :
      ExecEffect s i (r.writeResult dr v)
  /-- BR and JMP. -/
  | jump {i : Instr} (a : Word) (hdest : flagDest i = none) (hlink : links i = false)
      (htransfer : transfers i = true) : ExecEffect s i (s.setPc a)
  /-- JSR and JSRR: the link is the write of R7 that a trap entry makes. -/
  | call {i : Instr} (a : Word) (hdest : flagDest i = none) (hlink : links i = true)
      (htransfer : transfers i = true) : ExecEffect s i (s.trapEntry.setPc a)
  /-- The stores: one store, after at most the effect of a read. -/
  | store {i : Instr} {r : State} (a v : Word) (hdest : flagDest i = none) (hlink : links i = false)
      (haddr : storeAddr s i = some a) (hread : ReadEffect s r)
      (hplain : readsMemory i = false ∨ missesKbsr s i → r = s) : ExecEffect s i (r.poke a v)
  /-- RTI, RES and a BR that is not taken. -/
  | nothing {i : Instr} (hdest : flagDest i = none) (hlink : links i = false) : ExecEffect s i s
  /-- A GETC or IN that finds no byte. -/
  | hold {i : Instr} {w : WaitState} (bs : List Byte) (hi : readsKeyboard i) (hw : w ≠ .none) (hnil : s.kbd = []) :
      ExecEffect s i ((s.trapEntry.emitAll bs).setWait w)
  /-- A GETC or IN that finds a byte. -/
  | read {i : Instr} {b : Byte} {rest : List Byte} (bs : List Byte) (hi : readsKeyboard i) (hcons : s.kbd = b :: rest) :
      ExecEffect s i (({ s.trapEntry with kbd := rest, wait := .none }.emitAll bs).writeResult 0 (zext16 b))
  | trapOut (b : Byte) : ExecEffect s .trapOut (s.trapEntry.emit b)
  /-- PUTS and PUTSP. -/
  | string {i : Instr} {bytesOf : Word → List Byte} {t : State} (hroutine : StringRoutine i bytesOf)
      (hwalk : WalkEffect s.trapEntry t) (hplain : missesKbsr s i → t.mem = s.mem) : ExecEffect s i t
  | trapHalt : ExecEffect s .trapHalt (s.trapEntry.flush.setRun .halted)
  | trapUndefined (v : BitVec 8) : ExecEffect s (.trapUndefined v) (s.trapEntry.report (.invalidTrapVector v))

theorem misses_of_reads {i : Instr} {s : State} (hreads : readsMemory i = true)
    (h : readsMemory i = false ∨ missesKbsr s i) : missesKbsr s i :=
  h.resolve_left (by rw [hreads]; decide)

theorem State.memRead_state_of_ne (s : State) {a : Word} (h : a ≠ Config.kbsr) : (s.memRead a).2 = s := by
  rw [State.memRead_of_ne s h]

/-- An LDI of which neither read polls changes nothing by them. -/
theorem State.ldi_reads_of_ne {s : State} {off9 : BitVec 9} (hpointer : s.pcRelative off9 ≠ Config.kbsr)
    (hdata : s.peek (s.pcRelative off9) ≠ Config.kbsr) :
    ((s.indirect off9).2.memRead (s.indirect off9).1).2 = s := by
  rw [State.indirect, State.memRead_of_ne s hpointer]
  exact State.memRead_state_of_ne s hdata

/-- A string that misses 0xFE00 changes no memory. -/
theorem StringRoutine.mem_of_misses {i : Instr} {bytesOf : Word → List Byte} (h : StringRoutine i bytesOf) {s t : State}
    (hexec : exec i s = .next t) (hmiss : missesKbsr s i) : t.mem = s.mem := by
  obtain ⟨n, hn, hk, hzero⟩ : ∃ n, n < Config.memWords ∧
      (∀ k, k ≤ n → s.reg 0 + BitVec.ofNat 16 k ≠ Config.kbsr) ∧ s.stringWord (s.reg 0) n = 0x0000#16 := by
    cases h <;> exact hmiss
  obtain ⟨bs, hwalk⟩ := State.exists_walk_of_zero bytesOf (s := s.trapEntry)
    (Nat.lt_of_lt_of_le hn s.memWords_le_walkFuel) hk hzero
  rw [h.exec_eq_next_iff, hwalk] at hexec
  cases hexec
  rfl

theorem execGetc_effect (s : State) : ∃ t, exec .trapGetc s = .next t ∧ ExecEffect s .trapGetc t := by
  rcases hk : s.kbd with _ | ⟨b, rest⟩
  · refine ⟨_, (exec_trapGetc_eq s).trans (congrArg _ (State.finishGetc_nil hk)), ?_⟩
    rw [← State.emitAll_nil s.trapEntry]
    exact .hold [] (.inl rfl) (by decide) hk
  · refine ⟨_, (exec_trapGetc_eq s).trans (congrArg _ (State.finishGetc_cons hk)), ?_⟩
    have heffect := ExecEffect.read (i := .trapGetc) [] (.inl rfl) hk
    rwa [State.emitAll_nil] at heffect

theorem execIn_effect (s : State) : ∃ t, exec .trapIn s = .next t ∧ ExecEffect s .trapIn t := by
  rcases hk : s.kbd with _ | ⟨b, rest⟩
  · exact ⟨_, (exec_trapIn_eq s).trans (congrArg _ (State.finishIn_nil hk)), .hold inPrompt (.inr rfl) (by decide) hk⟩
  · refine ⟨_, (exec_trapIn_eq s).trans (congrArg _ (State.finishIn_cons hk)), ?_⟩
    have heffect := ExecEffect.read (i := .trapIn) (inPrompt ++ [b]) (.inr rfl) hk
    rw [← State.emitAll_emitAll] at heffect
    exact heffect

/-- Every instruction answers a next state, and that state is one of the effects. -/
theorem exec_effect (i : Instr) (s : State) : ∃ t, exec i s = .next t ∧ ExecEffect s i t := by
  cases i with
  | addReg | addImm | andReg | andImm | not | lea => exact ⟨_, rfl, .result _ rfl rfl (.refl s) fun _ => rfl⟩
  | ld dr off9 =>
    exact ⟨_, rfl, .result _ rfl rfl (s.memRead_effect _) fun h => s.memRead_state_of_ne (misses_of_reads rfl h)⟩
  | ldr dr baseR off6 =>
    exact ⟨_, rfl, .result _ rfl rfl (s.memRead_effect _) fun h => s.memRead_state_of_ne (misses_of_reads rfl h)⟩
  | ldi dr off9 =>
    refine ⟨_, rfl, .result _ rfl rfl ((s.indirect_effect off9).trans (State.memRead_effect _ _)) fun h => ?_⟩
    obtain ⟨hpointer, hdata⟩ : s.pcRelative off9 ≠ Config.kbsr ∧ s.peek (s.pcRelative off9) ≠ Config.kbsr :=
      misses_of_reads rfl h
    exact State.ldi_reads_of_ne hpointer hdata
  | st | str => exact ⟨_, rfl, .store _ _ rfl rfl rfl (.refl s) fun _ => rfl⟩
  | sti sr off9 =>
    exact ⟨_, rfl, .store _ _ rfl rfl rfl (s.indirect_effect off9) fun h =>
      s.memRead_state_of_ne (misses_of_reads rfl h)⟩
  | br n z p off9 =>
    by_cases htaken : s.cond.taken n z p = true
    · exact ⟨_, exec_br_taken off9 htaken, .jump _ rfl rfl rfl⟩
    · exact ⟨_, exec_br_not_taken off9 htaken, .nothing rfl rfl⟩
  | jmp => exact ⟨_, rfl, .jump _ rfl rfl rfl⟩
  | jsr | jsrr => exact ⟨_, rfl, .call _ rfl rfl rfl⟩
  | rti | res => exact ⟨_, rfl, .nothing rfl rfl⟩
  | trapGetc => exact execGetc_effect s
  | trapIn => exact execIn_effect s
  | trapOut => exact ⟨_, rfl, .trapOut _⟩
  | trapPuts =>
    obtain ⟨t, hexec⟩ := StringRoutine.puts.exec_ends s
    exact ⟨t, hexec, .string .puts (StringRoutine.puts.effect hexec) (StringRoutine.puts.mem_of_misses hexec)⟩
  | trapPutsp =>
    obtain ⟨t, hexec⟩ := StringRoutine.putsp.exec_ends s
    exact ⟨t, hexec, .string .putsp (StringRoutine.putsp.effect hexec) (StringRoutine.putsp.mem_of_misses hexec)⟩
  | trapHalt => exact ⟨_, rfl, .trapHalt⟩
  | trapUndefined v => exact ⟨_, rfl, .trapUndefined v⟩

/-- The inversion of `exec`. -/
theorem effect_of_exec {i : Instr} {s t : State} (h : exec i s = .next t) : ExecEffect s i t := by
  obtain ⟨u, hexec, heffect⟩ := exec_effect i s
  rw [hexec] at h
  cases h
  exact heffect

/-! ## Frames -/

section frames

variable {s t : State} {i : Instr}

@[simp] theorem State.writeResult_pc (s : State) (dr : Reg) (v : Word) : (s.writeResult dr v).pc = s.pc := rfl
@[simp] theorem State.writeResult_run (s : State) (dr : Reg) (v : Word) : (s.writeResult dr v).run = s.run := rfl
@[simp] theorem State.writeResult_wait (s : State) (dr : Reg) (v : Word) : (s.writeResult dr v).wait = s.wait := rfl
@[simp] theorem State.writeResult_mem (s : State) (dr : Reg) (v : Word) : (s.writeResult dr v).mem = s.mem := rfl
@[simp] theorem State.writeResult_kbd (s : State) (dr : Reg) (v : Word) : (s.writeResult dr v).kbd = s.kbd := rfl
@[simp] theorem State.writeResult_out (s : State) (dr : Reg) (v : Word) : (s.writeResult dr v).out = s.out := rfl
@[simp] theorem State.writeResult_err (s : State) (dr : Reg) (v : Word) : (s.writeResult dr v).err = s.err := rfl
@[simp] theorem State.writeResult_arrivals (s : State) (dr : Reg) (v : Word) :
    (s.writeResult dr v).arrivals = s.arrivals := rfl
@[simp] theorem State.writeResult_peekByte (s : State) (dr : Reg) (v : Word) (k : Nat) :
    (s.writeResult dr v).peekByte k = s.peekByte k := rfl

theorem State.writeResult_reg_other (s : State) {dr r : Reg} (v : Word) (h : dr ≠ r) :
    (s.writeResult dr v).reg r = s.reg r := by
  rw [State.writeResult_eq, State.setCond_reg, State.reg_setReg_other _ _ h]

theorem flagDest_of_readsKeyboard (h : readsKeyboard i) : flagDest i = some 0 := by
  rcases h with rfl | rfl <;> rfl

theorem links_of_readsKeyboard (h : readsKeyboard i) : links i = true := by
  rcases h with rfl | rfl <;> rfl

theorem StringRoutine.flagDest {bytesOf : Word → List Byte} (h : StringRoutine i bytesOf) : flagDest i = none := by
  cases h <;> rfl

theorem StringRoutine.links {bytesOf : Word → List Byte} (h : StringRoutine i bytesOf) : links i = true := by
  cases h <;> rfl

theorem StringRoutine.readsMemory {bytesOf : Word → List Byte} (h : StringRoutine i bytesOf) :
    readsMemory i = true := by
  cases h <;> rfl

theorem ReadEffect.reg {s r : State} (h : ReadEffect s r) (j : Reg) : r.reg j = s.reg j := by
  rw [h.rest]
  rfl

theorem WalkEffect.reg {s r : State} (h : WalkEffect s r) (j : Reg) : r.reg j = s.reg j := by
  rw [h.rest]
  rfl

theorem State.trapEntry_reg_other (s : State) {r : Reg} (h : r ≠ 7) : s.trapEntry.reg r = s.reg r :=
  State.reg_setReg_other s s.pc (Ne.symm h)

/-- Settles O24: only a result, a byte read and the link of `trapEntry` write a register. -/
theorem registerFrame : Obligations.RegisterFrame := by
  unfold Obligations.RegisterFrame
  intro i s t r hexec hdest hlink
  cases effect_of_exec hexec with
  | result v hd _ hread _ =>
    rw [State.writeResult_reg_other _ _ fun he => hdest (hd.trans (congrArg some he)), hread.reg]
  | store a v _ _ _ hread _ => exact hread.reg r
  | jump | nothing => rfl
  | call a _ hl => exact s.trapEntry_reg_other (hlink hl)
  | hold bs hi => exact s.trapEntry_reg_other (hlink (links_of_readsKeyboard hi))
  | read bs hi =>
    rw [State.writeResult_reg_other _ _ fun he =>
      hdest ((flagDest_of_readsKeyboard hi).trans (congrArg some he))]
    exact s.trapEntry_reg_other (hlink (links_of_readsKeyboard hi))
  | string hroutine hwalk => rw [hwalk.reg, s.trapEntry_reg_other (hlink hroutine.links)]
  | trapOut | trapHalt | trapUndefined => exact s.trapEntry_reg_other (hlink rfl)

theorem ExecEffect.reg_seven (h : ExecEffect s i t) (hlink : links i = true) : t.reg 7 = s.pc := by
  have hentry : s.trapEntry.reg 7 = s.pc := State.reg_setReg_same s 7 s.pc
  cases h with
  | result _ _ hl | store _ _ _ hl | nothing _ hl | jump _ _ hl =>
    rw [hlink] at hl
    cases hl
  | read =>
    rw [State.writeResult_reg_other _ _ (by decide)]
    exact hentry
  | string _ hwalk => rw [hwalk.reg, hentry]
  | call | hold | trapOut | trapHalt | trapUndefined => exact hentry

/-- Settles O25: the bytes that may change are those of a store, and of the keyboard cells where a read polls. -/
theorem memoryFrame : Obligations.MemoryFrame := by
  unfold Obligations.MemoryFrame
  intro i s t hexec
  cases effect_of_exec hexec with
  | result v _ _ hread hplain =>
    exact ⟨fun k hk _ => hread.bytes k hk, fun h k _ => by rw [hplain h, State.writeResult_peekByte]⟩
  | store a v _ _ haddr hread hplain =>
    have hstore : ∀ (r : State) k, (∀ c, storeAddr s i = some c → k ≠ highKey c ∧ k ≠ lowKey c) →
        (r.poke a v).peekByte k = r.peekByte k := fun r k hk =>
      State.peekByte_poke_ne r a v (hk a haddr).1 (hk a haddr).2
    exact ⟨fun k hkey hk => (hstore _ k hk).trans (hread.bytes k hkey),
      fun h k hk => (hstore _ k hk).trans (by rw [hplain h])⟩
  | string hroutine hwalk hplain =>
    refine ⟨fun k hkey _ => hwalk.bytes k hkey, fun h k _ => ?_⟩
    rw [State.peekByte, hplain (misses_of_reads hroutine.readsMemory h), State.peekByte]
  | jump | call | nothing | hold | read | trapOut | trapHalt | trapUndefined =>
    exact ⟨fun _ _ _ => rfl, fun _ _ _ => rfl⟩

theorem ExecEffect.pc (h : ExecEffect s i t) (htransfer : transfers i = false) : t.pc = s.pc := by
  cases h with
  | result v _ _ hread _ => rw [State.writeResult_pc, hread.rest]
  | store a v _ _ _ hread _ => rw [State.poke_pc, hread.rest]
  | string _ hwalk _ => rw [hwalk.rest, State.trapEntry_pc]
  | jump _ _ _ ht | call _ _ _ ht =>
    rw [htransfer] at ht
    cases ht
  | nothing | hold | read | trapOut | trapHalt | trapUndefined => rfl

/-- Settles O46: the entry writes R7, and after it only a byte read writes a register, R0. -/
theorem trapEntry : Obligations.TrapEntry := by
  unfold Obligations.TrapEntry
  intro i s t hi hexec
  obtain ⟨hlink, htransfer, hdest⟩ :
      links i = true ∧ transfers i = false ∧ (flagDest i = none ∨ flagDest i = some 0) := by
    rcases hi with rfl | rfl | rfl | rfl | rfl | rfl | ⟨v, rfl⟩ <;>
      exact ⟨rfl, rfl, by simp [flagDest]⟩
  have heffect := effect_of_exec hexec
  refine ⟨heffect.reg_seven hlink, heffect.pc htransfer, fun r h0 h7 => ?_⟩
  refine registerFrame i s t r hexec (fun hr => ?_) fun _ => h7
  rcases hdest with hnone | hzero
  · cases hnone.symm.trans hr
  · exact h0 (Option.some.inj (hzero.symm.trans hr)).symm

/-- The flags after an instruction: kept where it has no destination register, else set from that register; a GETC or IN
that holds has not come to them yet (40_fetch_decode_dispatch.md R76). -/
def FlagsFollow (i : Instr) (s t : State) : Prop :=
  (flagDest i = none → t.cond = s.cond) ∧
    (∀ d, flagDest i = some d → t.wait = .none → t.cond = condOf (t.reg d)) ∧ (t.wait ≠ .none → t.cond = s.cond)

theorem FlagsFollow.of_kept (hdest : flagDest i = none) (hcond : t.cond = s.cond) : FlagsFollow i s t :=
  ⟨fun _ => hcond, fun _ hd => (by cases hdest.symm.trans hd), fun _ => hcond⟩

theorem FlagsFollow.of_result {d : Reg} {r : State} (v : Word) (hdest : flagDest i = some d) (hwait : r.wait = .none) :
    FlagsFollow i s (r.writeResult d v) := by
  refine ⟨fun hnone => (by cases hnone.symm.trans hdest), fun e he _ => ?_, fun hne => absurd hwait hne⟩
  obtain rfl : d = e := Option.some.inj (hdest.symm.trans he)
  rw [State.writeResult_cond, State.writeResult_reg]

theorem ExecEffect.flagsFollow (h : ExecEffect s i t) (hwait : s.wait = .none) : FlagsFollow i s t := by
  cases h with
  | result v hdest _ hread _ => exact .of_result v hdest (by rw [hread.rest, hwait])
  | read bs hi => exact .of_result _ (flagDest_of_readsKeyboard hi) rfl
  | hold bs hi hw => exact ⟨fun _ => rfl, fun _ _ hnone => absurd hnone hw, fun _ => rfl⟩
  | store a v hdest _ _ hread _ => exact .of_kept hdest (by rw [State.poke_cond, hread.rest])
  | string hroutine hwalk _ => exact .of_kept hroutine.flagDest (by rw [hwalk.rest, State.trapEntry_cond])
  | jump _ hdest | call _ hdest | nothing hdest => exact .of_kept hdest rfl
  | trapOut | trapHalt | trapUndefined => exact .of_kept rfl rfl

/-- Only HALT changes the run state. -/
theorem ExecEffect.run (h : ExecEffect s i t) : t.run = s.run ∨ i = .trapHalt ∧ t.run = .halted := by
  cases h with
  | result v _ _ hread _ => exact .inl (by rw [State.writeResult_run, hread.rest])
  | store a v _ _ _ hread _ => exact .inl (by rw [State.poke_run, hread.rest])
  | string _ hwalk _ => exact .inl (by rw [hwalk.rest, State.trapEntry_run])
  | trapHalt => exact .inr ⟨rfl, rfl⟩
  | jump | call | nothing | hold | read | trapOut | trapUndefined => exact .inl rfl

/-- Only a TRAP with an undefined vector reports. -/
theorem ExecEffect.err (h : ExecEffect s i t) :
    t.err = s.err ∨ ∃ v, i = .trapUndefined v ∧ t.err = s.err ++ [.invalidTrapVector v] := by
  cases h with
  | result v _ _ hread _ => exact .inl (by rw [State.writeResult_err, hread.rest])
  | store a v _ _ _ hread _ => exact .inl (by rw [State.poke_err, hread.rest])
  | string _ hwalk _ => exact .inl (by rw [hwalk.rest, State.trapEntry_err])
  | trapUndefined v => exact .inr ⟨v, rfl, rfl⟩
  | jump | call | nothing | hold | read | trapOut | trapHalt => exact .inl rfl

/-- OUT grows at its end. -/
theorem ExecEffect.out (h : ExecEffect s i t) : s.out <+: t.out := by
  cases h with
  | result v _ _ hread _ => rw [State.writeResult_out, hread.rest]
  | store a v _ _ _ hread _ => rw [State.poke_out, hread.rest]
  | string _ hwalk _ =>
    obtain ⟨bs, hout⟩ := hwalk.out
    exact ⟨_, hout.symm⟩
  | jump | call | nothing | trapUndefined => exact List.prefix_refl _
  | hold | read | trapOut | trapHalt => exact List.prefix_append _ _

/-- Bytes leave the keyboard queue only from its head. -/
theorem ExecEffect.kbd (h : ExecEffect s i t) : t.kbd <:+ s.kbd := by
  cases h with
  | result v _ _ hread _ => exact hread.kbd
  | store a v _ _ _ hread _ => exact hread.kbd
  | string _ hwalk _ => exact hwalk.kbd
  | read bs _ hcons =>
    rw [hcons]
    exact List.suffix_cons _ _
  | jump | call | nothing | hold | trapOut | trapHalt | trapUndefined => exact List.suffix_refl _

theorem ExecEffect.arrivals (h : ExecEffect s i t) : t.arrivals = s.arrivals := by
  cases h with
  | result v _ _ hread _ => rw [State.writeResult_arrivals, hread.rest]
  | store a v _ _ _ hread _ => rw [State.poke_arrivals, hread.rest]
  | string _ hwalk _ => rw [hwalk.rest, State.trapEntry_arrivals]
  | jump | call | nothing | hold | read | trapOut | trapHalt | trapUndefined => rfl

/-- Memory stays canonical. -/
theorem ExecEffect.wf (h : ExecEffect s i t) (hwf : s.mem.wf = true) : t.mem.wf = true := by
  cases h with
  | result v _ _ hread _ => exact hread.wf hwf
  | store a v _ _ _ hread _ => exact State.wf_poke a v (hread.wf hwf)
  | string _ hwalk _ => exact hwalk.wf hwf
  | jump | call | nothing | hold | read | trapOut | trapHalt | trapUndefined => exact hwf

end frames

end Sys2Proof.Machine
end

section
/-! The condition register is read only by BR (10_state.md R15). -/

namespace Sys2Proof.Machine

/-- A result overwrites the flags, so what they were before is gone. -/
theorem State.writeResult_setCond (s : State) (c : Cond) (dr : Reg) (v : Word) :
    (s.setCond c).writeResult dr v = (s.writeResult dr v).setCond (condOf v) := by
  rw [State.writeResult_eq, State.writeResult_eq]
  rfl

theorem State.memRead_setCond (s : State) (c : Cond) (a : Word) :
    (s.setCond c).memRead a = ((s.memRead a).1, (s.memRead a).2.setCond c) :=
  (portBlind_setCond c).memRead s a

theorem State.indirect_setCond (s : State) (c : Cond) (off9 : BitVec 9) :
    (s.setCond c).indirect off9 = ((s.indirect off9).1, (s.indirect off9).2.setCond c) :=
  State.memRead_setCond s c _

theorem State.loadFrom_setCond (s : State) (c : Cond) (dr : Reg) (ea : Word) :
    (s.setCond c).loadFrom dr ea = (s.loadFrom dr ea).setCond (condOf (s.memRead ea).1) := by
  rw [State.loadFrom, State.memRead_setCond, State.writeResult_setCond]
  rfl

theorem StringRoutine.exec_setCond {i : Instr} {bytesOf : Word → List Byte} (h : StringRoutine i bytesOf) {s t : State}
    (hexec : exec i s = .next t) (c : Cond) : exec i (s.setCond c) = .next (t.setCond c) := by
  rw [h.exec_eq_next_iff] at hexec ⊢
  have hwalk := (portBlind_setCond c).walk (fun _ _ => rfl) bytesOf s.walkFuel (s.reg 0) s.trapEntry
  rw [hexec] at hwalk
  exact hwalk

/-- Settles O22: what an operation or a load leaves in `cond` comes from its result, what a GETC or IN leaves from its
byte; the others hand on what they find. -/
theorem condReadOnlyByBranch : Obligations.CondReadOnlyByBranch := by
  unfold Obligations.CondReadOnlyByBranch
  intro i s t c hbr hexec
  cases i with
  | br n z p off9 => exact absurd rfl (hbr n z p off9)
  | addReg | addImm | andReg | andImm | not | lea =>
    cases hexec
    exact ⟨_, congrArg Host.Outcome.next (State.writeResult_setCond s c _ _)⟩
  | ld | ldr =>
    cases hexec
    exact ⟨_, congrArg Host.Outcome.next (State.loadFrom_setCond s c _ _)⟩
  | ldi dr off9 =>
    cases hexec
    refine ⟨condOf ((s.indirect off9).2.memRead (s.indirect off9).1).1, ?_⟩
    rw [exec_ldi_eq, State.indirect_setCond, State.loadFrom_setCond]
  | sti sr off9 =>
    cases (exec_sti_eq s sr off9).symm.trans hexec
    refine ⟨c, ?_⟩
    rw [exec_sti_eq, State.indirect_setCond]
    rfl
  | trapPuts => exact ⟨c, StringRoutine.puts.exec_setCond hexec c⟩
  | trapPutsp => exact ⟨c, StringRoutine.putsp.exec_setCond hexec c⟩
  | trapGetc =>
    rcases hk : s.kbd with _ | ⟨b, rest⟩
    · cases (getcAndInHold s hk).1.symm.trans hexec
      exact ⟨c, (getcAndInHold (s.setCond c) hk).1⟩
    · cases (getcResult s b rest hk).symm.trans hexec
      exact ⟨_, getcResult (s.setCond c) b rest hk⟩
  | trapIn =>
    rcases hk : s.kbd with _ | ⟨b, rest⟩
    · cases (getcAndInHold s hk).2.symm.trans hexec
      exact ⟨c, (getcAndInHold (s.setCond c) hk).2⟩
    · cases (inResult s b rest hk).symm.trans hexec
      exact ⟨_, inResult (s.setCond c) b rest hk⟩
  | st | str | jmp | jsr | jsrr | rti | res | trapOut | trapHalt | trapUndefined =>
    cases hexec
    exact ⟨c, rfl⟩

end Sys2Proof.Machine
end

section
/-! The step (40_fetch_decode_dispatch.md R70 to R73): which instruction it runs and on what state. -/

namespace Sys2Proof.Machine

/-- The state that a step's instruction runs on: the bytes due have arrived, the word at pc is read, pc advanced. -/
def State.fetched (s : State) : State := s.deliver.fetch.2

theorem State.fetched_eq (s : State) : s.fetched = (s.deliver.memRead s.pc).2.setPc (s.pc + 1#16) := by
  rw [State.fetched, State.fetch, State.deliver_pc]

theorem State.fetched_effect (s : State) : ReadEffect s.deliver (s.deliver.memRead s.pc).2 := s.deliver.memRead_effect _

section fetchedFields

variable (s : State)

@[simp] theorem State.fetched_pc : s.fetched.pc = s.pc + 1#16 := by simp [State.fetched_eq]
@[simp] theorem State.fetched_run : s.fetched.run = s.run := by simp [State.fetched_eq]
@[simp] theorem State.fetched_wait : s.fetched.wait = s.wait := by simp [State.fetched_eq]
@[simp] theorem State.fetched_out : s.fetched.out = s.out := by simp [State.fetched_eq]
@[simp] theorem State.fetched_err : s.fetched.err = s.err := by simp [State.fetched_eq]
@[simp] theorem State.fetched_arrivals : s.fetched.arrivals = s.deliver.arrivals := by simp [State.fetched_eq]

end fetchedFields

/-! ## The steps by state -/

theorem step_of_halted {s : State} (h : s.run = .halted) : step s = .refused .halted := by
  simp [step, cycle, h]

theorem step_of_faulted {s : State} {r : FaultReason} (h : s.run = .faulted r) : step s = .fault (.faulted r) := by
  simp [step, cycle, h]

theorem step_of_running {s : State} (hrun : s.run = .running) (hwait : s.wait = .none) :
    step s = executeWord (s.deliver.memRead s.pc).1 s.fetched := by
  simp [step, cycle, hrun, hwait, fetchExecute, State.fetched, State.fetch]

theorem step_of_decode {s : State} {i : Instr} (hrun : s.run = .running) (hwait : s.wait = .none)
    (hdec : decode (s.deliver.memRead s.pc).1 = .ok i) : step s = exec i s.fetched := by
  rw [step_of_running hrun hwait, executeWord_of_decode hdec]

theorem State.deliver_peek (s : State) (a : Word) : s.deliver.peek a = s.peek a := by
  rw [State.peek, State.deliver_mem, State.peek]

/-- A fetch that misses 0xFE00 reads the stored word and changes nothing. -/
theorem State.deliver_memRead_of_ne (s : State) {a : Word} (h : a ≠ Config.kbsr) :
    s.deliver.memRead a = (s.peek a, s.deliver) := by
  rw [State.memRead_of_ne _ h, State.deliver_peek]

theorem step_of_stored {s : State} {i : Instr} (hrun : s.run = .running) (hwait : s.wait = .none)
    (hpc : s.pc ≠ Config.kbsr) (hdec : decode (s.peek s.pc) = .ok i) :
    step s = exec i (s.deliver.setPc (s.pc + 1#16)) := by
  rw [step_of_decode hrun hwait (by rw [s.deliver_memRead_of_ne hpc, hdec]), State.fetched_eq,
    s.deliver_memRead_of_ne hpc]

/-- Settles O8. -/
theorem stepRunsDecodedInstruction : Obligations.StepRunsDecodedInstruction := by
  unfold Obligations.StepRunsDecodedInstruction
  intro s i hrun hwait
  rw [← State.fetched_eq]
  exact ⟨step_of_decode hrun hwait, step_of_stored hrun hwait⟩

/-- Settles O19: the store leaves pc, run and wait alone, and the fetch reads the word it stored. -/
theorem storeIsSeenByNextFetch : Obligations.StoreIsSeenByNextFetch := by
  unfold Obligations.StoreIsSeenByNextFetch
  intro s v i hrun hwait hpc hdec
  refine step_of_stored (s := s.memWrite s.pc v) hrun hwait hpc ?_
  rw [State.memWrite_eq, State.poke_pc, State.peek_poke_same, hdec]

/-! ## Fetching from 0xFE00 -/

theorem decode_zero : decode 0x0000#16 = .ok (.br false false false 0#9) := by decide

/-- Bit 15 over zeros in bits 14:12 is the opcode of RTI. -/
theorem decode_kbsrReadyWord {v : Word} (h : v.extractLsb' 12 3 = 0#3) : decode (v ||| 0x8000#16) = .ok .rti := by
  have hlow : (field v 12 4).extractLsb' 0 3 = 0#3 := by
    rw [← h]
    ext k hk
    simp [field, show k < 4 by omega]
  have hset : ∀ x : BitVec 4, x.extractLsb' 0 3 = 0#3 → x ||| 8#4 = 8#4 := by decide
  have hop : field (v ||| 0x8000#16) 12 4 = opcodeNumber .rti := by
    rw [field_or, show field 0x8000#16 12 4 = 8#4 by decide, hset _ hlow]
    decide
  exact decode_of_opcode hop

/-- Settles O10: the fetch polls, so the word run is zero with nothing pending, a BR never taken, and else the ready
word of the one stored. -/
theorem fetchFromKbsrPolls : Obligations.FetchFromKbsrPolls := by
  unfold Obligations.FetchFromKbsrPolls
  intro s hrun hwait hpc
  have hfetch : ∀ r, s.deliver.memRead Config.kbsr = r → step s = executeWord r.1 (r.2.setPc 0xFE01#16) := by
    rintro r rfl
    rw [step_of_running hrun hwait, State.fetched_eq, hpc]
    rfl
  refine ⟨fun hnil => ?unready, fun b rest hcons => ?ready⟩
  case unready =>
    rw [hfetch _ (State.memRead_kbsr_nil hnil), executeWord_of_decode decode_zero]
    exact (branchResult _ false false false 0#9).2.2.1
  case ready =>
    intro w t
    have hstep : step s = executeWord w t := by
      rw [hfetch _ (State.memRead_kbsr_cons hcons), State.kbsrSideEffect_cons hcons, State.deliver_peek]
      rfl
    exact ⟨hstep, fun hbits => by rw [hstep, executeWord_of_decode (decode_kbsrReadyWord hbits)]; rfl⟩

/-! ## The inversion of `step` -/

/-- What a step that gives a next state can do. -/
inductive StepEffect (s : State) : State → Prop where
  /-- The cycle of a machine that is not held. -/
  | executed {i : Instr} {t : State} (hwait : s.wait = .none) (hdec : decode (s.deliver.memRead s.pc).1 = .ok i)
      (hexec : exec i s.fetched = .next t) : StepEffect s t
  /-- A hold that no byte lifts. -/
  | held (hwait : s.wait ≠ .none) (hnil : s.deliver.kbd = []) : StepEffect s s.deliver
  /-- A held GETC or IN that finds a byte. -/
  | completed {b : Byte} {rest : List Byte} (bs : List Byte) (hwait : s.wait ≠ .none)
      (hcons : s.deliver.kbd = b :: rest) :
      StepEffect s (({ s.deliver with kbd := rest, wait := .none }.emitAll bs).writeResult 0 (zext16 b))

theorem hold_effect {s : State} (hrun : s.run = .running) (hwait : s.wait ≠ .none) :
    ∃ t, step s = .next t ∧ StepEffect s t := by
  rcases hk : s.deliver.kbd with _ | ⟨b, rest⟩ <;> rcases hw : s.wait with _ | _ | _
  case nil.none | cons.none => exact absurd hw hwait
  case nil.getc =>
    exact ⟨_, (step_of_hold_getc hrun hw).trans (congrArg _ (State.finishGetc_nil hk)), .held hwait hk⟩
  case nil.inp =>
    exact ⟨_, (step_of_hold_inp hrun hw).trans (congrArg _ (State.finishIn_nil hk)), .held hwait hk⟩
  case cons.getc =>
    refine ⟨_, (step_of_hold_getc hrun hw).trans (congrArg _ (State.finishGetc_cons hk)), ?_⟩
    rw [← State.emitAll_nil { s.deliver with kbd := rest, wait := .none }]
    exact .completed [] hwait hk
  case cons.inp =>
    exact ⟨_, (step_of_hold_inp hrun hw).trans (congrArg _ (State.finishIn_cons hk)), .completed [b] hwait hk⟩

/-- A running machine always takes a step. -/
theorem step_effect {s : State} (hrun : s.run = .running) : ∃ t, step s = .next t ∧ StepEffect s t := by
  by_cases hwait : s.wait = .none
  · obtain ⟨op, -, hdec⟩ := exists_opcode_decode (s.deliver.memRead s.pc).1
    obtain ⟨t, hexec, -⟩ := exec_effect (decodeOperands op (s.deliver.memRead s.pc).1) s.fetched
    exact ⟨t, (step_of_decode hrun hwait hdec).trans hexec, .executed hwait hdec hexec⟩
  · exact hold_effect hrun hwait

theorem running_of_step {s t : State} (h : step s = .next t) : s.run = .running := by
  rcases hrun : s.run with _ | _ | r
  case running => rfl
  case halted => cases (step_of_halted hrun).symm.trans h
  case faulted => cases (step_of_faulted hrun).symm.trans h

theorem effect_of_step {s t : State} (h : step s = .next t) : StepEffect s t := by
  obtain ⟨u, hstep, heffect⟩ := step_effect (running_of_step h)
  cases hstep.symm.trans h
  exact heffect

/-! ## The statements about every step -/

/-- Settles O9. -/
theorem stepIsTakenExactlyWhenRunning : Obligations.StepIsTakenExactlyWhenRunning := by
  unfold Obligations.StepIsTakenExactlyWhenRunning
  intro s
  refine ⟨step_of_halted, fun _ => step_of_faulted, fun hrun => ?taken, fun hrun hwait hnil => ?held,
    fun b rest hrun hwait hcons => ?completed⟩
  case taken =>
    obtain ⟨t, hstep, -⟩ := step_effect hrun
    exact ⟨t, hstep⟩
  case held =>
    obtain ⟨t, hstep, heffect⟩ := hold_effect hrun hwait
    cases heffect with
    | executed hnone => exact absurd hnone hwait
    | held => exact hstep
    | completed _ _ hcons => cases hnil.symm.trans hcons
  case completed =>
    obtain ⟨t, hstep, heffect⟩ := hold_effect hrun hwait
    refine ⟨t, hstep, ?_⟩
    cases heffect with
    | executed hnone => exact absurd hnone hwait
    | held _ hnil => cases hnil.symm.trans hcons
    | completed _ _ hcons' =>
      obtain ⟨rfl, rfl⟩ := List.cons.inj (hcons.symm.trans hcons')
      exact ⟨rfl, s.deliver_pc, s.deliver_mem, rfl⟩

/-- Settles O21: in `exec` and, for a hold, in the step that completes it. -/
theorem flagWriters : Obligations.FlagWriters := by
  unfold Obligations.FlagWriters
  refine ⟨fun i s t hwait hexec => (effect_of_exec hexec).flagsFollow hwait, fun s t hwait hstep => ?hold,
    fun s => ?poll⟩
  case hold =>
    cases effect_of_step hstep with
    | executed hnone => exact absurd hnone hwait
    | held =>
      exact ⟨fun hnone => absurd (s.deliver_wait.symm.trans hnone) hwait, fun _ => s.deliver_cond⟩
    | completed =>
      exact ⟨fun _ => by rw [State.writeResult_cond, State.writeResult_reg], fun hne => absurd rfl hne⟩
  case poll => rw [s.kbsrSideEffect_effect.rest]

/-- Settles O26: the clause about a step is the clause about `exec` after the increment. -/
theorem pcWriters : Obligations.PcWriters := by
  unfold Obligations.PcWriters
  refine ⟨fun i s t hexec => (effect_of_exec hexec).pc, fun s t i hrun hwait hdec htransfer hstep => ?_⟩
  rw [step_of_decode hrun hwait hdec] at hstep
  rw [(effect_of_exec hstep).pc htransfer, State.fetched_pc]

/-- Settles O27. -/
theorem runLeavesRunningOnlyByHalt : Obligations.RunLeavesRunningOnlyByHalt := by
  unfold Obligations.RunLeavesRunningOnlyByHalt
  intro s t hstep
  have hrun : s.run = .running := running_of_step hstep
  refine ⟨hrun, ?_⟩
  cases effect_of_step hstep with
  | executed hwait hdec hexec =>
    rcases (effect_of_exec hexec).run with hkept | ⟨rfl, hhalted⟩
    · exact .inl (by rw [hkept, State.fetched_run, hrun])
    · exact .inr ⟨hhalted, hwait, hdec⟩
  | held | completed => exact .inl (s.deliver_run.trans hrun)

/-- Settles O28. -/
theorem streamFrame : Obligations.StreamFrame := by
  unfold Obligations.StreamFrame
  refine ⟨fun s t hstep => ?step, fun i s t hexec hdefined => ?exec⟩
  case step =>
    cases effect_of_step hstep with
    | executed hwait hdec hexec =>
      have heffect := effect_of_exec hexec
      have hout := heffect.out
      have hkbd := heffect.kbd
      rw [State.fetched_out] at hout
      refine ⟨hout, ?_, hkbd.trans ?_, heffect.arrivals.trans s.fetched_arrivals⟩
      · rcases heffect.err with hkept | ⟨v, -, hreport⟩
        · rw [hkept, State.fetched_err]
        · rw [hreport, State.fetched_err]
          exact List.prefix_append _ _
      · rw [State.fetched_eq]
        exact s.fetched_effect.kbd
    | held =>
      rw [State.deliver_out, State.deliver_err]
      exact ⟨List.prefix_refl _, List.prefix_refl _, List.suffix_refl _, rfl⟩
    | completed bs _ hcons =>
      rw [hcons, ← s.deliver_out, ← s.deliver_err]
      exact ⟨List.prefix_append _ _, List.prefix_refl _, List.suffix_cons _ _, rfl⟩
  case exec =>
    rcases (effect_of_exec hexec).err with hkept | ⟨v, rfl, -⟩
    · exact hkept
    · exact absurd rfl (hdefined v)

end Sys2Proof.Machine
end

section
/-! The invariant of sound states: every step keeps it, and a booted run begins with it (10_state.md R17,
60_exceptions.md R181, 70_reset_and_hazards.md R211). -/

namespace Sys2Proof.Machine

theorem haltOk_of_running {s : State} (h : s.run = .running) : s.HaltOk := fun hhalted => by
  cases h.symm.trans hhalted

theorem isFaulted_of_running {s : State} (h : s.run = .running) : s.run.isFaulted = false := by
  rw [h, RunState.isFaulted]

theorem inv_of_running {s : State} (hwf : s.mem.wf = true) (hrun : s.run = .running) (hwait : s.wait = .none)
    (herr : ∀ e ∈ s.err, e.isUndefinedVector = true) : s.Inv :=
  ⟨hwf, fun h => absurd hwait h, haltOk_of_running hrun, isFaulted_of_running hrun, herr⟩

/-- An instruction that some word decodes to reports undefined vectors only. -/
theorem ExecEffect.err_undefined {s t : State} {i : Instr} (h : ExecEffect s i t) (hwf : i.wellFormed = true)
    (herr : ∀ e ∈ s.err, e.isUndefinedVector = true) : ∀ e ∈ t.err, e.isUndefinedVector = true := by
  rcases h.err with hkept | ⟨v, rfl, hreport⟩
  · rwa [hkept]
  · intro e he
    rw [hreport, List.mem_append, List.mem_singleton] at he
    rcases he with he | rfl
    · exact herr e he
    · exact hwf

/-- An instruction that runs on a sound state that is not held leaves a sound state. -/
theorem ExecEffect.inv {s t : State} {i : Instr} (h : ExecEffect s i t) (hiwf : i.wellFormed = true)
    (hwf : s.mem.wf = true) (hrun : s.run = .running) (hwait : s.wait = .none)
    (herr : ∀ e ∈ s.err, e.isUndefinedVector = true) : t.Inv := by
  have hwf' := h.wf hwf
  have herr' := h.err_undefined hiwf herr
  cases h with
  | hold bs hi hw hnil =>
    exact ⟨hwf', fun _ => ⟨hrun, State.reg_setReg_same s 7 s.pc, hnil⟩, haltOk_of_running hrun,
      isFaulted_of_running hrun, herr'⟩
  | trapHalt =>
    exact ⟨hwf', fun h => absurd hwait h,
      fun _ => ⟨List.getLast?_concat, State.reg_setReg_same s 7 s.pc, hwait⟩, rfl, herr'⟩
  | result v _ _ hread _ =>
    exact inv_of_running hwf' (by rw [State.writeResult_run, hread.rest, hrun])
      (by rw [State.writeResult_wait, hread.rest, hwait]) herr'
  | store a v _ _ _ hread _ =>
    exact inv_of_running hwf' (by rw [State.poke_run, hread.rest, hrun])
      (by rw [State.poke_wait, hread.rest, hwait]) herr'
  | string _ hwalk _ =>
    exact inv_of_running hwf' (by rw [hwalk.rest, State.trapEntry_run, hrun])
      (by rw [hwalk.rest, State.trapEntry_wait, hwait]) herr'
  | read => exact inv_of_running hwf' hrun rfl herr'
  | jump | call | nothing | trapOut | trapUndefined => exact inv_of_running hwf' hrun hwait herr'

/-- Settles O11. -/
theorem stepKeepsInvariant : Obligations.StepKeepsInvariant := by
  unfold Obligations.StepKeepsInvariant
  intro s t hinv hstep
  obtain ⟨hwf, hhold, -, -, herr⟩ := hinv
  have hrun := running_of_step hstep
  cases effect_of_step hstep with
  | executed hwait hdec hexec =>
    have hfetched : s.fetched.mem.wf = true := by
      rw [State.fetched_eq]
      exact s.fetched_effect.wf (by rwa [State.deliver_mem])
    exact (effect_of_exec hexec).inv ((decode_eq_ok_iff _ _).mp hdec).1 hfetched (s.fetched_run.trans hrun)
      (s.fetched_wait.trans hwait) (by rwa [State.fetched_err])
  | held hwait hnil =>
    obtain ⟨-, hlink, -⟩ := hhold hwait
    have hrun' : s.deliver.run = .running := s.deliver_run.trans hrun
    exact ⟨by rwa [State.deliver_mem], fun _ => ⟨hrun', by rw [State.deliver_reg, hlink, State.deliver_pc], hnil⟩,
      haltOk_of_running hrun', isFaulted_of_running hrun', by rwa [State.deliver_err]⟩
  | completed bs hwait hcons =>
    exact inv_of_running (by rw [← s.deliver_mem] at hwf; exact hwf) (s.deliver_run.trans hrun) rfl
      (by rw [← s.deliver_err] at herr; exact herr)

theorem resetWith_inv (gpr : Vector Word 8) (kbd : List Byte) (arrivals : List (List Byte)) :
    (State.resetWith gpr kbd arrivals).Inv :=
  inv_of_running (State.resetWith_mem_wf gpr kbd arrivals) rfl rfl fun _ he => absurd he List.not_mem_nil

/-- Settles O12. -/
theorem resetMeetsInvariant : Obligations.ResetMeetsInvariant := by
  unfold Obligations.ResetMeetsInvariant
  exact ⟨resetWith_inv _ _ _, resetWith_inv⟩

theorem Memory.getWord_nil (a : Word) : Memory.getWord [] a = 0x0000#16 := by
  rw [Memory.getWord, Memory.getByte, Memory.getByte]
  decide

/-- Settles O14: the memory lists no byte, and an unlisted byte reads as zero. -/
theorem resetValues : Obligations.ResetValues := by
  unfold Obligations.ResetValues
  exact fun _ _ _ => ⟨rfl, rfl, rfl, rfl, Memory.getWord_nil, rfl, rfl, rfl, rfl, rfl⟩

/-- What holds of the first state and is kept by every step holds of every state reached. -/
theorem Reaches.keeps {P : State → Prop} (hstep : ∀ s t, P s → step s = .next t → P t) {s t : State}
    (h : Reaches s t) (hs : P s) : P t := by
  induction h with
  | start => exact hs
  | next _ hnext ih => exact hstep _ _ ih hnext

end Sys2Proof.Machine
end

section
/-! The image loader and the boot (70_reset_and_hazards.md R202 to R206). -/

namespace Sys2Proof.Machine

theorem boot_of_load_error {ε : Type} {src : ImageSource ε} {e : LoadError ε} (h : load src = .error e)
    (gpr : Vector Word 8) (kbd : List Byte) (arrivals : List (List Byte)) : boot gpr kbd arrivals src = .error e := by
  rw [boot, h]

theorem boot_of_load_ok {ε : Type} {src : ImageSource ε} {m : Memory} (h : load src = .ok m)
    (gpr : Vector Word 8) (kbd : List Byte) (arrivals : List (List Byte)) :
    boot gpr kbd arrivals src = .ok { State.resetWith gpr kbd arrivals with mem := m } := by
  rw [boot, h]

/-- Settles O60. -/
theorem bootSequence : Obligations.BootSequence := by
  unfold Obligations.BootSequence
  intro ε gpr kbd arrivals src
  exact ⟨fun e he => boot_of_load_error he gpr kbd arrivals, fun m hm =>
    ⟨_, boot_of_load_ok hm gpr kbd arrivals, rfl, rfl, rfl, rfl, rfl, rfl, rfl, rfl, rfl⟩⟩

/-- A boot that starts a run starts it in a sound state: the reset state with a canonical memory. -/
theorem boot_inv {ε : Type} {gpr : Vector Word 8} {kbd : List Byte} {arrivals : List (List Byte)} {src : ImageSource ε}
    {s : State} (h : boot gpr kbd arrivals src = .ok s) : s.Inv := by
  rcases hload : load src with e | m
  · cases (boot_of_load_error hload gpr kbd arrivals).symm.trans h
  · cases (boot_of_load_ok hload gpr kbd arrivals).symm.trans h
    exact inv_of_running (load_wf hload) rfl rfl fun _ he => absurd he List.not_mem_nil

/-- Settles O13: a booted run begins in a sound state and every step keeps it so. -/
theorem bootedRunsKeepInvariant : Obligations.BootedRunsKeepInvariant := by
  unfold Obligations.BootedRunsKeepInvariant
  intro ε gpr kbd arrivals src s t hboot hreach
  have hinv : t.Inv := hreach.keeps stepKeepsInvariant (boot_inv hboot)
  refine ⟨hinv, fun r hr => ?_⟩
  obtain ⟨-, -, -, hfaulted, -⟩ := hinv
  rw [hr] at hfaulted
  cases hfaulted

/-! ## What a load stores -/

theorem load_origin {ε : Type} (b0 b1 : Byte) (bs : List Byte) (ending : SourceEnd ε) :
    load ⟨b0 :: b1 :: bs, ending⟩ = loadWords ending bs (b0 ++ b1 : Word).toNat [] := rfl

theorem toNat_append_bytes (b0 b1 : Byte) : (b0 ++ b1 : Word).toNat = 256 * b0.toNat + b1.toNat := by
  rw [BitVec.toNat_append, ← Nat.shiftLeft_add_eq_or_of_lt b1.isLt, Nat.shiftLeft_eq, Nat.mul_comm]

/-- Settles O59: the origin takes two bytes; the words' load is one memory, about which the source's ending decides if
it comes before the address space is full (`loadWords_effect`). -/
theorem loadErrors : Obligations.LoadErrors := by
  unfold Obligations.LoadErrors
  intro ε e
  refine ⟨fun bs hlen => ?short, fun b0 b1 bs => ?long⟩
  case short =>
    match bs, hlen with
    | [], _ | [_], _ => exact ⟨rfl, rfl⟩
  case long =>
    obtain ⟨m, -, heffect⟩ := loadWords_effect bs (b0 ++ b1 : Word).toNat (m := []) rfl
    refine ⟨m, ?_, ?_⟩
    · rw [load_origin, heffect, endOfWords, ite_self]
    · rw [load_origin, heffect, endOfWords, toNat_append_bytes]
      rfl

/-- The two bytes of a word in an image, high byte first. -/
def imageBytes (w : Word) : List Byte := [w.extractLsb' 8 8, w.extractLsb' 0 8]

theorem loadWords_of_le {ε : Type} (ending : SourceEnd ε) (bs : List Byte) {a : Nat} (m : Memory)
    (h : Config.memWords ≤ a) : loadWords ending bs a m = .ok m := by
  match bs with
  | [] | [_] | _ :: _ :: _ => rw [loadWords, if_neg (not_lt.mpr h)]

theorem loadWords_cons {ε : Type} (ending : SourceEnd ε) (w : Word) (bs : List Byte) {a : Nat} (m : Memory)
    (h : a < Config.memWords) :
    loadWords ending (imageBytes w ++ bs) a m = loadWords ending bs (a + 1) (m.setWord (BitVec.ofNat 16 a) w) := by
  rw [imageBytes, List.cons_append, List.cons_append, List.nil_append, loadWords, if_pos h, extract_append_extract]

theorem loadWords_eof_odd {ε : Type} {odd : List Byte} (h : odd.length ≤ 1) (a : Nat) (m : Memory) :
    loadWords (.eof : SourceEnd ε) odd a m = .ok m := by
  match odd, h with
  | [], _ | [_], _ => rw [loadWords, endOfWords, ite_self]

theorem ne_ofNat_of_toNat_ne {c : Word} {a : Nat} (ha : a < Config.memWords) (h : c.toNat ≠ a) :
    c ≠ BitVec.ofNat 16 a := by
  rintro rfl
  exact h ((BitVec.toNat_ofNat a 16).trans (Nat.mod_eq_of_lt ha))

/-- The word loop stores word `k` in cell `a + k` as far as there is one, and no other cell. -/
theorem loadWords_stores (ε : Type) (ws : List Word) {odd : List Byte} (hodd : odd.length ≤ 1) (a : Nat) (m : Memory) :
    ∃ m', loadWords (.eof : SourceEnd ε) (ws.flatMap imageBytes ++ odd) a m = .ok m' ∧
      ∀ c : Word, m'.getWord c = if a ≤ c.toNat then ws.getD (c.toNat - a) (m.getWord c) else m.getWord c := by
  induction ws generalizing a m with
  | nil => exact ⟨m, loadWords_eof_odd hodd a m, fun c => by simp⟩
  | cons w ws ih =>
    by_cases ha : a < Config.memWords
    · obtain ⟨m', hload, hget⟩ := ih (a + 1) (m.setWord (BitVec.ofNat 16 a) w)
      refine ⟨m', ?_, fun c => ?_⟩
      · rw [List.flatMap_cons, List.append_assoc, loadWords_cons _ w _ m ha, hload]
      · rw [hget]
        by_cases heq : c.toNat = a
        · have hc : c = BitVec.ofNat 16 a := by rw [← heq, BitVec.ofNat_toNat, BitVec.setWidth_eq]
          rw [if_neg (by omega), if_pos (by omega), ← hc, Memory.getWord_setWord_same, heq, Nat.sub_self]
          rfl
        · rw [Memory.getWord_setWord_ne _ _ (ne_ofNat_of_toNat_ne ha heq)]
          rcases Nat.lt_or_gt_of_ne heq with hlt | hgt
          · rw [if_neg (by omega), if_neg (by omega)]
          · rw [if_pos (by omega), if_pos (by omega), show c.toNat - a = c.toNat - (a + 1) + 1 by omega,
              List.getD_cons_succ]
    · refine ⟨m, loadWords_of_le _ _ m (not_lt.mp ha), fun c => ?_⟩
      rw [if_neg]
      have hc : c.toNat < Config.memWords := c.isLt
      omega

/-- Settles O58. -/
theorem loadStoresWords : Obligations.LoadStoresWords := by
  unfold Obligations.LoadStoresWords
  intro ε origin ws odd hodd bytes
  obtain ⟨m, hload, hget⟩ := loadWords_stores ε ws hodd origin.toNat []
  have hm : load (⟨bytes origin ++ ws.flatMap bytes ++ odd, .eof⟩ : ImageSource ε) = .ok m := by
    have horigin := load_origin (origin.extractLsb' 8 8) (origin.extractLsb' 0 8) (ws.flatMap bytes ++ odd)
      (.eof : SourceEnd ε)
    rw [extract_append_extract] at horigin
    exact horigin.trans hload
  exact ⟨m, hm, load_wf hm, fun a => by rw [hget, Memory.getWord_nil]⟩

end Sys2Proof.Machine
end
